-- ==== Sys2Proof/Config.lean ====
section
/-! DEFINITION. What the spec leaves to the implementation: one open parameter. -/

namespace Sys2Proof

/-- SIZE_BITS of this block (00_scope.md R10): the width in bits of the size type, an OPEN parameter.
It has no body, so no proof can see its value; `State.reset` copies it into `State.sizeBits`, and
every statement quantifies over that field (log 5). -/
opaque Config.sizeBits : Nat

end Sys2Proof
end

