-- ==== Sys2Proof/Word.lean ====
section
/-! DEFINITION. The value types of the block: bytes, 16-bit words, byte order, pixels and rasters. -/

namespace Sys2Proof

/-- `u8` of 00_scope.md R13; R8: a byte is 8 bits. -/
abbrev Byte := BitVec 8

/-- `u16` of 00_scope.md R13: an RGB565 word (R6), a dimension field (R7). -/
abbrev Word16 := BitVec 16

/-- `Ord` of 00_scope.md R13: the byte order of a command (10_state.md R24). -/
inductive Ord where
  /-- least-significant byte first -/
  | le
  /-- most-significant byte first -/
  | be
deriving DecidableEq, Repr

/-- 30_encoding.md R67: three independent 8-bit channels. -/
structure RGB888 where
  r : Byte
  g : Byte
  b : Byte
deriving DecidableEq, Repr

/-- 00_scope.md R13 and 10_state.md R30: the row-major pixels of a `W` by `H` grid.
The last field makes a pixel list of another length unrepresentable (DEDUCED, safe, log 13). -/
structure Raster where
  W : Nat
  H : Nat
  px : List RGB888
  size : px.length = W * H := by decide
deriving DecidableEq, Repr

end Sys2Proof
end

