-- ==== Sys2Proof/Syntax.lean ====
section
/-! DEFINITION. The eight operations of the command table, one constructor each. -/

namespace Sys2Proof

/-- 30_encoding.md R61. Every operation takes ORD from the command word (R65); PACK and UNPACK carry
it too and ignore it (R64, log 14). The operands travel in the bundle, not in the word (R60). -/
inductive Instr where
  /-- PACK, 40_pixel_codec.md R80 -/
  | pack (ord : Ord)
  /-- UNPACK, 40_pixel_codec.md R81 -/
  | unpack (ord : Ord)
  /-- HDR_ENC, 41_header_codec.md R93 -/
  | hdrEnc (ord : Ord)
  /-- HDR_DEC, 41_header_codec.md R94 -/
  | hdrDec (ord : Ord)
  /-- WORD_SER, 41_header_codec.md R95 -/
  | wordSer (ord : Ord)
  /-- WORD_DES, 41_header_codec.md R96 -/
  | wordDes (ord : Ord)
  /-- FRAME_ENC, 42_frame_codec.md R111 -/
  | frameEnc (ord : Ord)
  /-- FRAME_DEC, 42_frame_codec.md R113 -/
  | frameDec (ord : Ord)
deriving DecidableEq, Repr

end Sys2Proof
end

