-- ==== Sys2Proof/WellFormed.lean ====
section
/-! DEFINITION. The checks the spec puts on command words, on rasters and on written commands. -/

namespace Sys2Proof

/-- 30_encoding.md R63: a command word is legal exactly when its RSV field, bits 7:4, is 0000. -/
def legalWord (cmd : Byte) : Bool :=
  cmd.extractLsb' 4 4 == 0#4

/-- 10_state.md R30: a raster of the given dimensions from a pixel list, refused when the list does
not have exactly `W * H` pixels. -/
def Raster.ofPixels? (W H : Nat) (px : List RGB888) : Option Raster :=
  if h : px.length = W * H then some ⟨W, H, px, h⟩ else none

/-- 30_encoding.md R73: what an assembler writes. PACK and UNPACK are written with no order suffix
and ORD = 0; their other spelling (words 0x08, 0x09) is legal and executes alike (R64). -/
def Instr.canonical : Instr → Bool
  | .pack ord => ord == .le
  | .unpack ord => ord == .le
  | .hdrEnc _ => true
  | .hdrDec _ => true
  | .wordSer _ => true
  | .wordDes _ => true
  | .frameEnc _ => true
  | .frameDec _ => true

end Sys2Proof
end

