-- ==== Sys2Proof/Decode.lean ====
section
/-! DEFINITION. Command words: decoder, encoder, and the textual form of 30_encoding.md R73. -/

namespace Sys2Proof

/-- Why a command word is rejected. -/
inductive DecodeReject where
  /-- 30_encoding.md R63: RSV is not 0000; the step answers it with status IllegalCommand (safe). -/
  | reservedBits (rsv : BitVec 4)
deriving DecidableEq, Repr

/-- 30_encoding.md R62: ORD = 0 is LE, ORD = 1 is BE. -/
def ordOfBit : Bool → Ord
  | false => .le
  | true => .be

/-- 30_encoding.md R62, the other direction. -/
def ordBit : Ord → BitVec 1
  | .le => 0#1
  | .be => 1#1

/-- 30_encoding.md R61: the operation of OP, its bits written from bit 2 down to bit 0. -/
def instrOfOp (b2 b1 b0 : Bool) (ord : Ord) : Instr :=
  match b2, b1, b0 with
  | false, false, false => .pack ord
  | false, false, true => .unpack ord
  | false, true, false => .hdrEnc ord
  | false, true, true => .hdrDec ord
  | true, false, false => .wordSer ord
  | true, false, true => .wordDes ord
  | true, true, false => .frameEnc ord
  | true, true, true => .frameDec ord

/-- 30_encoding.md R60 to R63: total on the 256 words. -/
def decode (cmd : Byte) : Except DecodeReject Instr :=
  if legalWord cmd then
    .ok (instrOfOp (cmd.getLsbD 2) (cmd.getLsbD 1) (cmd.getLsbD 0) (ordOfBit (cmd.getLsbD 3)))
  else
    .error (.reservedBits (cmd.extractLsb' 4 4))

/-- 30_encoding.md R61: the OP field of an operation. -/
def opField : Instr → BitVec 3
  | .pack _ => 0b000#3
  | .unpack _ => 0b001#3
  | .hdrEnc _ => 0b010#3
  | .hdrDec _ => 0b011#3
  | .wordSer _ => 0b100#3
  | .wordDes _ => 0b101#3
  | .frameEnc _ => 0b110#3
  | .frameDec _ => 0b111#3

/-- The ORD a command carries (30_encoding.md R65). -/
def ordField : Instr → Ord
  | .pack ord => ord
  | .unpack ord => ord
  | .hdrEnc ord => ord
  | .hdrDec ord => ord
  | .wordSer ord => ord
  | .wordDes ord => ord
  | .frameEnc ord => ord
  | .frameDec ord => ord

/-- 30_encoding.md R60: RSV, ORD, OP from the most significant bit down. -/
def encode (i : Instr) : Byte :=
  (0#4 ++ ordBit (ordField i)) ++ opField i

/-- 30_encoding.md R73: the suffix of an ordered operation. -/
def ordSuffix : Ord → String
  | .le => ".LE"
  | .be => ".BE"

/-- 30_encoding.md R73: what a disassembler prints for a command, its operands left out
(DESIGN CHOICE, safe, log 15). -/
def commandText : Instr → String
  | .pack _ => "PACK"
  | .unpack _ => "UNPACK"
  | .hdrEnc ord => "HDR_ENC" ++ ordSuffix ord
  | .hdrDec ord => "HDR_DEC" ++ ordSuffix ord
  | .wordSer ord => "WORD_SER" ++ ordSuffix ord
  | .wordDes ord => "WORD_DES" ++ ordSuffix ord
  | .frameEnc ord => "FRAME_ENC" ++ ordSuffix ord
  | .frameDec ord => "FRAME_DEC" ++ ordSuffix ord

/-- 30_encoding.md R73: the listing of the textual commands with their words. -/
def assemblerTable : List (String × Byte) :=
  [("PACK", 0x00#8), ("UNPACK", 0x01#8),
   ("HDR_ENC.LE", 0x02#8), ("HDR_ENC.BE", 0x0A#8),
   ("HDR_DEC.LE", 0x03#8), ("HDR_DEC.BE", 0x0B#8),
   ("WORD_SER.LE", 0x04#8), ("WORD_SER.BE", 0x0C#8),
   ("WORD_DES.LE", 0x05#8), ("WORD_DES.BE", 0x0D#8),
   ("FRAME_ENC.LE", 0x06#8), ("FRAME_ENC.BE", 0x0E#8),
   ("FRAME_DEC.LE", 0x07#8), ("FRAME_DEC.BE", 0x0F#8)]

/-- 30_encoding.md R73 and R74: a written command is exactly one command word; a missing suffix on an
ordered operation, or a suffix on PACK or UNPACK, is no command. -/
def assemble (text : String) : Option Byte :=
  (assemblerTable.find? (fun e => e.1 == text)).map (fun e => e.2)

/-- 30_encoding.md R73: the text of a command word, none for an illegal one. -/
def disassemble (cmd : Byte) : Option String :=
  match decode cmd with
  | .ok i => some (commandText i)
  | .error _ => none

/-- The host's view of the decoder: one command word of 8 bits (30_encoding.md R72). A number that
needs more bits than a command word has is no command word (DESIGN CHOICE, safe, log 12). -/
def decodeTableWord (nbits w : Nat) : Option Instr :=
  if nbits ≤ 8 ∧ w < 256 then
    match decode (BitVec.ofNat 8 w) with
    | .ok i => some i
    | .error _ => none
  else
    none

end Sys2Proof
end

