-- ==== Sys2Proof/Machine/State.lean ====
section
/-! DEFINITION. What a command takes and yields, the machine's state, and the state after reset. -/

namespace Sys2Proof.Machine

/-- 10_state.md R22 and 30_encoding.md R65: the operand bundle. It has a place for the operands of
every operation, and each operation reads its own (DESIGN CHOICE, safe, log 3). -/
structure Operands where
  /-- `r`, `g`, `b` of PACK -/
  rgb : RGB888
  /-- `p` of UNPACK, `v` of WORD_SER -/
  word : Word16
  /-- `w` of HDR_ENC -/
  w : Word16
  /-- `h` of HDR_ENC -/
  h : Word16
  /-- `img` of FRAME_ENC -/
  img : Raster
  /-- SRC of HDR_DEC, WORD_DES and FRAME_DEC -/
  src : List Byte
deriving DecidableEq, Repr

/-- A bundle of zeros: the 0 by 0 raster and no bytes. -/
def Operands.zeros : Operands where
  rgb := ⟨0#8, 0#8, 0#8⟩
  word := 0#16
  w := 0#16
  h := 0#16
  img := ⟨0, 0, [], rfl⟩
  src := []

/-- 10_state.md R22: a command word and its operand bundle, presented as one input. -/
structure Command where
  word : Byte
  operands : Operands
deriving DecidableEq, Repr

/-- What the host does to the block (00_scope.md R15; 70_reset_and_hazards.md R150, R151; log 1). -/
inductive HostMove where
  /-- presents a command and lets it complete -/
  | command (c : Command)
  /-- presents a command and resets the block during it (R151) -/
  | resetDuring (c : Command)
  /-- resets the idle block (R150) -/
  | reset
deriving DecidableEq, Repr

/-- 10_state.md R23 and 30_encoding.md R65: the result bundle of a command that ends with OK. -/
inductive Result where
  /-- PACK and WORD_DES -/
  | word (p : Word16)
  /-- UNPACK -/
  | rgb (c : RGB888)
  /-- HDR_ENC -/
  | headerBytes (hb : List Byte)
  /-- HDR_DEC -/
  | dims (w h : Word16)
  /-- WORD_SER -/
  | wordBytes (wb : List Byte)
  /-- FRAME_ENC -/
  | blob (out : List Byte)
  /-- FRAME_DEC -/
  | raster (img : Raster)
deriving DecidableEq, Repr

/-- 60_exceptions.md R130: the error kinds. An error records nothing beyond its kind (R135). -/
inductive CodecError where
  /-- R131 -/
  | dimensionOutOfRange
  /-- R132 -/
  | truncatedInput
  /-- R133 -/
  | illegalCommand
deriving DecidableEq, Repr

/-- 10_state.md R23: the one outcome of a command. -/
inductive Completion where
  /-- status OK with the result bundle -/
  | ok (r : Result)
  /-- an error status with no result -/
  | error (e : CodecError)
  /-- 70_reset_and_hazards.md R151: abandoned by a reset, no result (DESIGN CHOICE, safe, log 9) -/
  | abandoned
deriving DecidableEq, Repr

/-- The block has no fault: every error is a status and the next command starts fresh
(60_exceptions.md R134, R136; DEDUCED, unsafe, log 8). -/
inductive Fault where
deriving DecidableEq, Repr

/-- Why a step has no meaning. -/
inductive Refusal where
  /-- Raised by an arm of `exec` for an instruction without a meaning (safe). No arm raises it. -/
  | notModelled (mnemonic : String)
deriving DecidableEq, Repr

/-- The block together with the host's side of its interface. The block itself keeps nothing from one
command to the next (10_state.md R20, R29) and has no memory (20_memory.md R48; DEDUCED, safe,
log 10). Time and hosts that break their duties are out (DEDUCED, unsafe, log 6). -/
structure State where
  /-- SIZE_BITS, the parameter of the instance; no step changes it (00_scope.md R10, log 5) -/
  sizeBits : Nat
  /-- the operand bundle of the command in progress; it exists only while the command is presented
  (10_state.md R22, R32) -/
  operands : Option Operands
  /-- what the host has still to do, in order (20_memory.md R53, log 1) -/
  hostMoves : List HostMove
  /-- what the host has received, oldest first; no step reads it (10_state.md R23, log 2) -/
  delivered : List Completion
deriving DecidableEq, Repr

/-- 70_reset_and_hazards.md R150: idle, no command in progress, and no register to set. Nothing is
presented and nothing delivered; SIZE_BITS is the open parameter (log 5). -/
def State.reset : State where
  sizeBits := Config.sizeBits
  operands := none
  hostMoves := []
  delivered := []

end Sys2Proof.Machine
end

