-- ==== Sys2Proof/Machine/Flags.lean ====
section
/-! DEFINITION. The status code of a completion, and the size check. The block has no other flag
(10_state.md R25). -/

namespace Sys2Proof.Machine

/-- 60_exceptions.md R130: the 2-bit code of an error. -/
def errorCode : CodecError → BitVec 2
  | .dimensionOutOfRange => 1#2
  | .truncatedInput => 2#2
  | .illegalCommand => 3#2

/-- 60_exceptions.md R130: the status a command writes at its completion. A command that a reset
abandoned writes none (70_reset_and_hazards.md R151, log 9). -/
def statusOf : Completion → Option (BitVec 2)
  | .ok _ => some 0#2
  | .error e => some (errorCode e)
  | .abandoned => none

/-- 42_frame_codec.md R110: the exact size of the blob of a `W` by `H` image. -/
def blobSize (W H : Nat) : Nat :=
  4 + 2 * W * H

/-- 42_frame_codec.md R112: the byte count fits the size type of `sizeBits` bits. -/
def sizeOK (sizeBits W H : Nat) : Bool :=
  decide (blobSize W H ≤ 2 ^ sizeBits - 1)

end Sys2Proof.Machine
end

