-- ==== Sys2Proof/Machine/Operands.lean ====
section
/-! DEFINITION. Reading operands and laying out results: byte order, source bytes, raster pixels. -/

namespace Sys2Proof.Machine

/-- 41_header_codec.md R90. -/
def ser16 (v : Word16) : Ord → List Byte
  | .le => [v.extractLsb' 0 8, v.extractLsb' 8 8]
  | .be => [v.extractLsb' 8 8, v.extractLsb' 0 8]

/-- 41_header_codec.md R91; `b0` is the byte at the lower offset. -/
def des16 (b0 b1 : Byte) : Ord → Word16
  | .le => (b1.setWidth 16 <<< 8) ||| b0.setWidth 16
  | .be => (b0.setWidth 16 <<< 8) ||| b1.setWidth 16

/-- `MemRead(off, n)` of 00_scope.md R13, used only after the check that the bytes exist. -/
def memRead (src : List Byte) (off n : Nat) (h : off + n ≤ src.length) : Fin n → Byte :=
  fun k => src[off + k.val]'(by omega)

/-- The 16-bit value at a byte offset of a source (20_memory.md R43). -/
def wordAt (src : List Byte) (off : Nat) (h : off + 2 ≤ src.length) (ord : Ord) : Word16 :=
  des16 (memRead src off 2 h 0) (memRead src off 2 h 1) ord

/-- 30_encoding.md R68: width first, then height. -/
def headerBytes (w h : Word16) (ord : Ord) : List Byte :=
  ser16 w ord ++ ser16 h ord

/-- 20_memory.md R50: the pixel index of column `x`, row `y`. -/
def pixelIndex (W x y : Nat) : Nat :=
  y * W + x

/-- 20_memory.md R50: the byte offset of the word of column `x`, row `y`. -/
def pixelOffset (W x y : Nat) : Nat :=
  4 + 2 * pixelIndex W x y

/-- A pixel of the grid has its index below the number of pixels. -/
theorem pixelIndex_lt {W H x y : Nat} (hx : x < W) (hy : y < H) : pixelIndex W x y < W * H := by
  have h : (y + 1) * W ≤ H * W := Nat.mul_le_mul_right W hy
  have e : (y + 1) * W = y * W + W := Nat.succ_mul y W
  have c : H * W = W * H := Nat.mul_comm H W
  unfold pixelIndex
  omega

/-- The word of a pixel of the grid lies inside the blob. -/
theorem pixelOffset_le {W H x y : Nat} (hx : x < W) (hy : y < H) :
    pixelOffset W x y + 2 ≤ blobSize W H := by
  have h := pixelIndex_lt hx hy
  have e : 2 * W * H = 2 * (W * H) := Nat.mul_assoc 2 W H
  unfold pixelOffset blobSize
  omega

/-- `RasterGet(img, x, y)` of 00_scope.md R13, inside the grid by its type (93, I14). -/
def rasterGet (img : Raster) (x : Fin img.W) (y : Fin img.H) : RGB888 :=
  img.px[pixelIndex img.W x.val y.val]'(img.size ▸ pixelIndex_lt x.isLt y.isLt)

/-- The values of a function on the grid in the scan order of 42_frame_codec.md R114: rows top to
bottom, each from left to right. -/
def scan {α : Type} (W H : Nat) (f : Fin W → Fin H → α) : List α :=
  (List.finRange H).flatMap fun y => (List.finRange W).map fun x => f x y

/-- The scan visits every pixel once. -/
theorem scan_length {α : Type} (W H : Nat) (f : Fin W → Fin H → α) :
    (scan W H f).length = W * H := by
  simp [scan, List.length_flatMap, Nat.mul_comm]

end Sys2Proof.Machine
end

