-- ==== Sys2Proof/Machine/Ops.lean ====
section
/-! DEFINITION. The operations on the state: presenting, completing, raising an error, reset. -/

namespace Sys2Proof.Machine

/-- The host's next move is taken; `rest` is what it has still to do. -/
def State.withMoves (rest : List HostMove) (s : State) : State :=
  { s with hostMoves := rest }

/-- 10_state.md R22: the bundle of the presented command stands at the block's input. -/
def State.load (o : Operands) (s : State) : State :=
  { s with operands := some o }

/-- 10_state.md R32: no command in progress, its operands have ceased to exist. -/
def State.toIdle (s : State) : State :=
  { s with operands := none }

/-- 10_state.md R23: a command ends with exactly one outcome, which is handed to the host. -/
def State.complete (c : Completion) (s : State) : State :=
  { s.toIdle with delivered := s.delivered ++ [c] }

/-- Status OK with a result bundle. -/
def State.answer (r : Result) (s : State) : State :=
  s.complete (.ok r)

/-- 60_exceptions.md R134: error entry. The status is the error code, there is no result, nothing is
saved, no mode changes and control goes nowhere; R136: there is no return from it. -/
def State.raise (e : CodecError) (s : State) : State :=
  s.complete (.error e)

/-- 70_reset_and_hazards.md R151: a reset during a command ends it with no result. -/
def State.abandon (s : State) : State :=
  s.complete .abandoned

/-- The outcome that the operation `f` computes from the presented operands becomes the command's
completion. With nothing presented, which no step reaches, nothing happens (DESIGN CHOICE, safe,
log 4). -/
def conclude (f : Operands → Except CodecError Result) (s : State) :
    Host.Outcome State Fault Refusal :=
  .next (match s.operands with
    | none => s
    | some o =>
      match f o with
      | .ok r => s.answer r
      | .error e => s.raise e)

/-- The command the host presents to try a word of the opcode table: the word with operands of zeros,
SRC being four zero bytes (log 11). -/
def trialCommand (w : Nat) : Command where
  word := BitVec.ofNat 8 w
  operands := { Operands.zeros with src := [0#8, 0#8, 0#8, 0#8] }

end Sys2Proof.Machine
end

