-- ==== Sys2Proof/Machine/HeaderCodec.lean ====
section
/-! DEFINITION. HDR_ENC, HDR_DEC, WORD_SER and WORD_DES (41_header_codec.md). -/

namespace Sys2Proof.Machine

/-- 41_header_codec.md R94: both dimensions from the first four bytes; later bytes are ignored
(20_memory.md R51). -/
def decodeHeader (src : List Byte) (ord : Ord) : Except CodecError (Word16 × Word16) :=
  if h : src.length < 4 then
    .error .truncatedInput
  else
    .ok (wordAt src 0 (by omega) ord, wordAt src 2 (by omega) ord)

/-- 41_header_codec.md R96: one word from the first two bytes. -/
def decodeWord (src : List Byte) (ord : Ord) : Except CodecError Word16 :=
  if h : src.length < 2 then
    .error .truncatedInput
  else
    .ok (wordAt src 0 (by omega) ord)

/-- HDR_ENC, 41_header_codec.md R93. -/
def execHdrEnc (ord : Ord) (s : State) : Host.Outcome State Fault Refusal :=
  conclude (fun o => .ok (.headerBytes (headerBytes o.w o.h ord))) s

/-- HDR_DEC, 41_header_codec.md R94. -/
def execHdrDec (ord : Ord) (s : State) : Host.Outcome State Fault Refusal :=
  conclude (fun o => (decodeHeader o.src ord).map fun d => .dims d.1 d.2) s

/-- WORD_SER, 41_header_codec.md R95. -/
def execWordSer (ord : Ord) (s : State) : Host.Outcome State Fault Refusal :=
  conclude (fun o => .ok (.wordBytes (ser16 o.word ord))) s

/-- WORD_DES, 41_header_codec.md R96. -/
def execWordDes (ord : Ord) (s : State) : Host.Outcome State Fault Refusal :=
  conclude (fun o => (decodeWord o.src ord).map .word) s

end Sys2Proof.Machine
end

