-- ==== Sys2Proof/Machine/PixelCodec.lean ====
section
/-! DEFINITION. PACK and UNPACK (40_pixel_codec.md). -/

namespace Sys2Proof.Machine

/-- 40_pixel_codec.md R80: truncation of each channel, fields 5/6/5. -/
def pack (c : RGB888) : Word16 :=
  let r5 : BitVec 5 := c.r.extractLsb' 3 5
  let g6 : BitVec 6 := c.g.extractLsb' 2 6
  let b5 : BitVec 5 := c.b.extractLsb' 3 5
  (r5.setWidth 16 <<< 11) ||| (g6.setWidth 16 <<< 5) ||| b5.setWidth 16

/-- 40_pixel_codec.md R81: zero-fill widening of each field. -/
def unpack (p : Word16) : RGB888 :=
  let r5 : Word16 := (p >>> 11) &&& 0x1F#16
  let g6 : Word16 := (p >>> 5) &&& 0x3F#16
  let b5 : Word16 := p &&& 0x1F#16
  ⟨(r5 <<< 3).setWidth 8, (g6 <<< 2).setWidth 8, (b5 <<< 3).setWidth 8⟩

/-- PACK, 40_pixel_codec.md R80; ORD ignored (30_encoding.md R64). -/
def execPack (_ord : Ord) (s : State) : Host.Outcome State Fault Refusal :=
  conclude (fun o => .ok (.word (pack o.rgb))) s

/-- UNPACK, 40_pixel_codec.md R81; ORD ignored (30_encoding.md R64). -/
def execUnpack (_ord : Ord) (s : State) : Host.Outcome State Fault Refusal :=
  conclude (fun o => .ok (.rgb (unpack o.word))) s

end Sys2Proof.Machine
end

