-- ==== Sys2Proof/Machine/FrameCodec.lean ====
section
/-! DEFINITION. FRAME_ENC and FRAME_DEC (42_frame_codec.md). -/

namespace Sys2Proof.Machine

/-- 42_frame_codec.md R111: the words of the packed pixels in scan order (R114), one byte order. -/
def pixelStream (img : Raster) (ord : Ord) : List Byte :=
  (scan img.W img.H fun x y => ser16 (pack (rasterGet img x y)) ord).flatten

/-- 42_frame_codec.md R111: the range check, the size check, then header and pixel stream. -/
def frameEncode (sizeBits : Nat) (img : Raster) (ord : Ord) : Except CodecError (List Byte) :=
  if img.W > 65535 ∨ img.H > 65535 then
    .error .dimensionOutOfRange
  else if !sizeOK sizeBits img.W img.H then
    .error .dimensionOutOfRange
  else
    .ok (headerBytes (BitVec.ofNat 16 img.W) (BitVec.ofNat 16 img.H) ord ++ pixelStream img ord)

/-- 42_frame_codec.md R113: the declared grid filled from the pixel words, in scan order (R114); the
dimensions stay as declared even when one is 0 (R115). -/
def decodePixels (src : List Byte) (W H : Nat) (h : blobSize W H ≤ src.length) (ord : Ord) :
    Raster where
  W := W
  H := H
  px := scan W H fun x y =>
    unpack (wordAt src (pixelOffset W x.val y.val)
      (Nat.le_trans (pixelOffset_le x.isLt y.isLt) h) ord)
  size := scan_length W H _

/-- 42_frame_codec.md R113, its checks in the order of R118: short header, size, short stream. -/
def frameDecode (sizeBits : Nat) (src : List Byte) (ord : Ord) : Except CodecError Raster :=
  match decodeHeader src ord with
  | .error e => .error e
  | .ok (w, h) =>
    if !sizeOK sizeBits w.toNat h.toNat then
      .error .dimensionOutOfRange
    else if hlen : src.length < blobSize w.toNat h.toNat then
      .error .truncatedInput
    else
      .ok (decodePixels src w.toNat h.toNat (Nat.le_of_not_lt hlen) ord)

/-- FRAME_ENC, 42_frame_codec.md R111. -/
def execFrameEnc (ord : Ord) (s : State) : Host.Outcome State Fault Refusal :=
  conclude (fun o => (frameEncode s.sizeBits o.img ord).map .blob) s

/-- FRAME_DEC, 42_frame_codec.md R113. -/
def execFrameDec (ord : Ord) (s : State) : Host.Outcome State Fault Refusal :=
  conclude (fun o => (frameDecode s.sizeBits o.src ord).map .raster) s

end Sys2Proof.Machine
end

