-- ==== Sys2Proof/Machine/Dispatch.lean ====
section
/-! DEFINITION. One arm per operation: the meaning it calls. -/

namespace Sys2Proof.Machine

/-- 30_encoding.md R61: the operation a legal command word selects. -/
def exec (i : Instr) (s : State) : Host.Outcome State Fault Refusal :=
  match i with
  | .pack ord => Sys2Proof.Machine.execPack ord s
  | .unpack ord => Sys2Proof.Machine.execUnpack ord s
  | .hdrEnc ord => Sys2Proof.Machine.execHdrEnc ord s
  | .hdrDec ord => Sys2Proof.Machine.execHdrDec ord s
  | .wordSer ord => Sys2Proof.Machine.execWordSer ord s
  | .wordDes ord => Sys2Proof.Machine.execWordDes ord s
  | .frameEnc ord => Sys2Proof.Machine.execFrameEnc ord s
  | .frameDec ord => Sys2Proof.Machine.execFrameDec ord s

end Sys2Proof.Machine
end

