-- ==== Sys2Proof/Machine/Step.lean ====
section
/-! DEFINITION. One step: the block takes the host's next move. -/

namespace Sys2Proof.Machine

/-- 00_scope.md R15 and 20_memory.md R53: one command, one atomic step, in the order presented. An
illegal word raises IllegalCommand before any operand is read (60_exceptions.md R133, R138). A block
with nothing presented stays idle (DESIGN CHOICE, safe, log 7). -/
def step (s : State) : Host.Outcome State Fault Refusal :=
  match s.hostMoves with
  | [] => .next s
  | .command c :: rest =>
    match decode c.word with
    | .ok i => exec i ((s.withMoves rest).load c.operands)
    | .error _ => .next ((s.withMoves rest).raise .illegalCommand)
  | .resetDuring _ :: rest => .next (s.withMoves rest).abandon
  | .reset :: rest => .next (s.withMoves rest).toIdle

/-- `s` with the host about to present the command word `w`, its only word (30_encoding.md R72), with
operands of zeros: the very next step runs it (log 11). -/
def State.withFetchWord (s : State) (_nbits w : Nat) : State :=
  s.withMoves (.command (trialCommand w) :: s.hostMoves)

end Sys2Proof.Machine
end

