-- ==== Sys2Proof/Safety.lean ====
section
/-! DEFINITION. What claims are stated in: legitimate completions, the invariant, a move taken alone. -/

namespace Sys2Proof.Safety

open Sys2Proof.Machine

/-- The state after a command that ended with `c`: the completion is handed to the host, the command's
operands no longer exist, and nothing else has changed (10_state.md R23, R32). -/
def handed (s : State) (c : Completion) : State :=
  { s with operands := none, delivered := s.delivered ++ [c] }

/-- 30_encoding.md R66: the 5/6/5 word of the bits that truncation keeps. -/
def keptFields (c : RGB888) : Word16 :=
  c.r.extractLsb' 3 5 ++ c.g.extractLsb' 2 6 ++ c.b.extractLsb' 3 5

/-- 40_pixel_codec.md R81: `r5 ++ 000`, `g6 ++ 00`, `b5 ++ 000`. -/
def zeroFilled (p : Word16) : RGB888 :=
  ⟨p.extractLsb' 11 5 ++ 0#3, p.extractLsb' 5 6 ++ 0#2, p.extractLsb' 0 5 ++ 0#3⟩

/-- 20_memory.md R43: the word whose bytes are `b0`, at the lower offset, and `b1`. -/
def wordOfBytes (b0 b1 : Byte) : Ord → Word16
  | .le => b1 ++ b0
  | .be => b0 ++ b1

/-- 41_header_codec.md R92: the word with its two bytes exchanged. -/
def swapBytes (v : Word16) : Word16 :=
  v.extractLsb' 0 8 ++ v.extractLsb' 8 8

/-- 30_encoding.md R65: the two bundles agree on every operand that the operation reads. -/
def SameOperands (i : Instr) (a b : Operands) : Prop :=
  match i with
  | .pack _ => a.rgb = b.rgb
  | .unpack _ => a.word = b.word
  | .hdrEnc _ => a.w = b.w ∧ a.h = b.h
  | .hdrDec _ => a.src = b.src
  | .wordSer _ => a.word = b.word
  | .wordDes _ => a.src = b.src
  | .frameEnc _ => a.img = b.img
  | .frameDec _ => a.src = b.src

/-- 60_exceptions.md R130: the status codes an operation of the table can end with. -/
def statusesOf : Instr → List (BitVec 2)
  | .pack _ => [0#2]
  | .unpack _ => [0#2]
  | .hdrEnc _ => [0#2]
  | .hdrDec _ => [0#2, 2#2]
  | .wordSer _ => [0#2]
  | .wordDes _ => [0#2, 2#2]
  | .frameEnc _ => [0#2, 1#2]
  | .frameDec _ => [0#2, 1#2, 2#2]

/-- 40_pixel_codec.md R85: the channel values that survive quantisation. -/
def maskPixel (c : RGB888) : RGB888 :=
  ⟨c.r &&& 0xF8#8, c.g &&& 0xFC#8, c.b &&& 0xF8#8⟩

/-- 40_pixel_codec.md R81: the low 3 bits of red and blue and the low 2 bits of green are 0. -/
def Quantised (c : RGB888) : Prop :=
  c.r.extractLsb' 0 3 = 0#3 ∧ c.g.extractLsb' 0 2 = 0#2 ∧ c.b.extractLsb' 0 3 = 0#3

/-- 10_state.md R31 and 30_encoding.md R72: some byte order reads from the first four bytes the
dimensions whose blob is exactly as long as the list, a length the size type holds (R112). -/
def BlobShaped (sizeBits : Nat) (out : List Byte) : Prop :=
  ∃ (ord : Ord) (w h : Word16), out.take 4 = headerBytes w h ord ∧
    out.length = 4 + 2 * w.toNat * h.toNat ∧ out.length ≤ 2 ^ sizeBits - 1

/-- What 10_state.md R23, R30 and R31 let a block with the parameter `sizeBits` hand to the host. -/
def Legitimate (sizeBits : Nat) : Completion → Prop
  | .ok (.rgb c) => Quantised c
  | .ok (.headerBytes hb) => hb.length = 4
  | .ok (.wordBytes wb) => wb.length = 2
  | .ok (.blob out) => BlobShaped sizeBits out
  | .ok (.raster img) => img.W ≤ 65535 ∧ img.H ≤ 65535 ∧
      4 + 2 * img.W * img.H ≤ 2 ^ sizeBits - 1 ∧ ∀ c ∈ img.px, Quantised c
  | .ok (.word _) => True
  | .ok (.dims _ _) => True
  | .error _ => True
  | .abandoned => True

/-- Between two steps no command is in progress (10_state.md R28, R32), and everything handed to the
host is legitimate. -/
def Inv (s : State) : Prop :=
  s.operands = none ∧ ∀ c ∈ s.delivered, Legitimate s.sizeBits c

/-- The completions a host move causes in a block that has done nothing before. -/
def completionsAlone (sizeBits : Nat) (m : HostMove) : List Completion :=
  match step ⟨sizeBits, none, [m], []⟩ with
  | .next t => t.delivered
  | .fault _ => []
  | .refused _ => []

/-- The other byte order. -/
def otherOrd : Ord → Ord
  | .le => .be
  | .be => .le

end Sys2Proof.Safety
end

