-- ==== Sys2Proof/Certificates/Slice0/Obligations.lean ====
section
/-! DEFINITION. The statements for the provers. -/

open Sys2Proof Sys2Proof.Machine Sys2Proof.Safety

/-- 30_encoding.md R61 and R62: the sixteen legal words, and what LE and BE mean for a word's bytes. -/
def Obligations.CommandWordsSelectTheirOperations : Prop :=
  decode 0b00000000#8 = .ok (.pack .le) ∧ decode 0b00001000#8 = .ok (.pack .be) ∧
  decode 0b00000001#8 = .ok (.unpack .le) ∧ decode 0b00001001#8 = .ok (.unpack .be) ∧
  decode 0b00000010#8 = .ok (.hdrEnc .le) ∧ decode 0b00001010#8 = .ok (.hdrEnc .be) ∧
  decode 0b00000011#8 = .ok (.hdrDec .le) ∧ decode 0b00001011#8 = .ok (.hdrDec .be) ∧
  decode 0b00000100#8 = .ok (.wordSer .le) ∧ decode 0b00001100#8 = .ok (.wordSer .be) ∧
  decode 0b00000101#8 = .ok (.wordDes .le) ∧ decode 0b00001101#8 = .ok (.wordDes .be) ∧
  decode 0b00000110#8 = .ok (.frameEnc .le) ∧ decode 0b00001110#8 = .ok (.frameEnc .be) ∧
  decode 0b00000111#8 = .ok (.frameDec .le) ∧ decode 0b00001111#8 = .ok (.frameDec .be) ∧
  ∀ v : Word16, ser16 v .le = [v.extractLsb' 0 8, v.extractLsb' 8 8] ∧
    ser16 v .be = [v.extractLsb' 8 8, v.extractLsb' 0 8]

/-- 30_encoding.md R63 and 60_exceptions.md R133: a word whose RSV field is not 0000 ends with status 3
and no result, whatever its operands are; there are 240 such words. -/
def Obligations.ReservedWordsRaiseIllegalCommand : Prop :=
  (∀ (s : State) (w : Byte) (o : Operands) (rest : List HostMove),
    s.hostMoves = .command ⟨w, o⟩ :: rest → w.extractLsb' 4 4 ≠ 0#4 →
      step s = .next ⟨s.sizeBits, none, rest, s.delivered ++ [.error .illegalCommand]⟩) ∧
  statusOf (.error .illegalCommand) = some 3#2 ∧
  ((List.range 256).filter fun n => (decodeTableWord 8 n).isNone).length = 240

/-- 30_encoding.md R60 to R62: decoding and encoding are inverse on the legal words. -/
def Obligations.DecodeAndEncodeAgree : Prop :=
  ∀ (i : Instr) (cmd : Byte), decode cmd = .ok i ↔ cmd = encode i

/-- 30_encoding.md R73 and R74: the text of a command is assembled to exactly one word, the word of
the canonical spelling, and a disassembler prints that text for every spelling. -/
def Obligations.CommandTextIsOneWord : Prop :=
  ∀ i : Instr, ∃ j : Instr,
    assemble (commandText i) = some (encode j) ∧ j.canonical = true ∧
    commandText j = commandText i ∧ (i.canonical = true → j = i) ∧
    disassemble (encode i) = some (commandText i)

/-- A presented word that decodes runs its instruction on the presented operands (10_state.md R22,
20_memory.md R53); the move is used up. -/
def Obligations.StepRunsTheDecodedCommand : Prop :=
  ∀ (s : State) (w : Byte) (o : Operands) (rest : List HostMove) (i : Instr),
    s.hostMoves = .command ⟨w, o⟩ :: rest → decode w = .ok i →
      step s = exec i ⟨s.sizeBits, some o, rest, s.delivered⟩

/-- The model's choices where no command runs: a block with nothing presented stays as it is (log 7),
and no operation does anything without operands (log 4). A reset of the idle block yields nothing
(70_reset_and_hazards.md R150); a reset during a command ends it with no result (R151) and, in the
model, no status (log 9). -/
def Obligations.IdleAndResetSteps : Prop :=
  ∀ (s : State) (i : Instr) (c : Command) (rest : List HostMove),
    (s.hostMoves = [] → step s = .next s) ∧
    (s.operands = none → exec i s = .next s) ∧
    (s.hostMoves = .reset :: rest →
      step s = .next ⟨s.sizeBits, none, rest, s.delivered⟩) ∧
    (s.hostMoves = .resetDuring c :: rest →
      step s = .next ⟨s.sizeBits, none, rest, s.delivered ++ [.abandoned]⟩) ∧
    statusOf .abandoned = none

/-- 70_reset_and_hazards.md R150: after reset no command is in progress. That nothing is presented and
nothing delivered is the model's host side (logs 1 and 2), and SIZE_BITS is the open parameter (log 5).
The invariant holds. -/
def Obligations.ResetIsIdleAndKeepsTheInvariant : Prop :=
  State.reset = ⟨Config.sizeBits, none, [], []⟩ ∧ Inv State.reset

/-- 40_pixel_codec.md R80, in the shifts of its pseudocode; words 0x00 and 0x08; status OK. -/
def Obligations.PackAssemblesTheWord : Prop :=
  (∀ (ord : Ord) (s : State) (o : Operands), s.operands = some o →
    exec (.pack ord) s = .next (handed s (.ok (.word
      (((o.rgb.r.extractLsb' 3 5).setWidth 16 <<< 11) |||
       ((o.rgb.g.extractLsb' 2 6).setWidth 16 <<< 5) |||
       (o.rgb.b.extractLsb' 3 5).setWidth 16))))) ∧
  decode 0x00#8 = .ok (.pack .le) ∧ decode 0x08#8 = .ok (.pack .be) ∧
  ∀ r : Result, statusOf (.ok r) = some 0#2

/-- 40_pixel_codec.md R82 and R86: the fields of PACK's word are the channels truncated toward zero. -/
def Obligations.PackFieldsAreTruncatedChannels : Prop :=
  ∀ (ord : Ord) (s : State) (o : Operands), s.operands = some o → ∃ p : Word16,
    exec (.pack ord) s = .next (handed s (.ok (.word p))) ∧
    (p.extractLsb' 11 5).setWidth 8 = o.rgb.r >>> 3 ∧
    (p.extractLsb' 5 6).setWidth 8 = o.rgb.g >>> 2 ∧
    (p.extractLsb' 0 5).setWidth 8 = o.rgb.b >>> 3 ∧
    (p.extractLsb' 11 5).toNat = o.rgb.r.toNat / 8 ∧
    (p.extractLsb' 5 6).toNat = o.rgb.g.toNat / 4 ∧
    (p.extractLsb' 0 5).toNat = o.rgb.b.toNat / 8

/-- 40_pixel_codec.md R87: each output field depends on the kept bits of one channel, and each output
channel on one field. The last clause of the first part says that the discarded bits have no effect. -/
def Obligations.PixelLanesAreIndependent : Prop :=
  (∀ (o1 o2 : Ord) (s t : State) (a b : Operands), s.operands = some a → t.operands = some b →
    ∃ p q : Word16,
      exec (.pack o1) s = .next (handed s (.ok (.word p))) ∧
      exec (.pack o2) t = .next (handed t (.ok (.word q))) ∧
      (a.rgb.r.extractLsb' 3 5 = b.rgb.r.extractLsb' 3 5 →
        p.extractLsb' 11 5 = q.extractLsb' 11 5) ∧
      (a.rgb.g.extractLsb' 2 6 = b.rgb.g.extractLsb' 2 6 →
        p.extractLsb' 5 6 = q.extractLsb' 5 6) ∧
      (a.rgb.b.extractLsb' 3 5 = b.rgb.b.extractLsb' 3 5 →
        p.extractLsb' 0 5 = q.extractLsb' 0 5) ∧
      (a.rgb.r.extractLsb' 3 5 = b.rgb.r.extractLsb' 3 5 →
        a.rgb.g.extractLsb' 2 6 = b.rgb.g.extractLsb' 2 6 →
        a.rgb.b.extractLsb' 3 5 = b.rgb.b.extractLsb' 3 5 → p = q)) ∧
  (∀ (o1 o2 : Ord) (s t : State) (a b : Operands), s.operands = some a → t.operands = some b →
    ∃ c d : RGB888,
      exec (.unpack o1) s = .next (handed s (.ok (.rgb c))) ∧
      exec (.unpack o2) t = .next (handed t (.ok (.rgb d))) ∧
      (a.word.extractLsb' 11 5 = b.word.extractLsb' 11 5 → c.r = d.r) ∧
      (a.word.extractLsb' 5 6 = b.word.extractLsb' 5 6 → c.g = d.g) ∧
      (a.word.extractLsb' 0 5 = b.word.extractLsb' 0 5 → c.b = d.b))

/-- 40_pixel_codec.md R81: each field with zeros below it; words 0x01 and 0x09; status OK. -/
def Obligations.UnpackFillsWithZeros : Prop :=
  (∀ (ord : Ord) (s : State) (o : Operands), s.operands = some o → ∃ c : RGB888,
    exec (.unpack ord) s = .next (handed s (.ok (.rgb c))) ∧
    c = zeroFilled o.word ∧
    c.r.toNat ≤ 248 ∧ c.g.toNat ≤ 252 ∧ c.b.toNat ≤ 248 ∧
    c.r.extractLsb' 0 3 = 0#3 ∧ c.g.extractLsb' 0 2 = 0#2 ∧ c.b.extractLsb' 0 3 = 0#3) ∧
  decode 0x01#8 = .ok (.unpack .le) ∧ decode 0x09#8 = .ok (.unpack .be) ∧
  ∀ r : Result, statusOf (.ok r) = some 0#2

/-- 40_pixel_codec.md R84: PACK of UNPACK's pixel is the word that was unpacked. -/
def Obligations.UnpackThenPackIsTheIdentity : Prop :=
  ∀ (o1 o2 : Ord) (s t : State) (a b : Operands), s.operands = some a → t.operands = some b →
    ∃ c : RGB888,
      exec (.unpack o1) s = .next (handed s (.ok (.rgb c))) ∧
      (b.rgb = c → exec (.pack o2) t = .next (handed t (.ok (.word a.word))))

/-- 40_pixel_codec.md R85 (but for its count of the fixed points): UNPACK of PACK's word masks the
channels, gives the pixel back exactly when the discarded bits are zero, and is idempotent. -/
def Obligations.PackThenUnpackMasksTheChannels : Prop :=
  (∀ (o1 o2 : Ord) (s t : State) (a b : Operands), s.operands = some a → t.operands = some b →
    ∃ p : Word16,
      exec (.pack o1) s = .next (handed s (.ok (.word p))) ∧
      (b.word = p → exec (.unpack o2) t = .next (handed t (.ok (.rgb (maskPixel a.rgb)))))) ∧
  (∀ c : RGB888, maskPixel c = c ↔ Quantised c) ∧
  ∀ c : RGB888, maskPixel (maskPixel c) = maskPixel c

/-- 41_header_codec.md R93: width then height, each in the requested order; words 0x02 and 0x0A. -/
def Obligations.HdrEncWritesWidthThenHeight : Prop :=
  (∀ (s : State) (o : Operands), s.operands = some o →
    exec (.hdrEnc .le) s = .next (handed s (.ok (.headerBytes
      [o.w.extractLsb' 0 8, o.w.extractLsb' 8 8, o.h.extractLsb' 0 8, o.h.extractLsb' 8 8])))) ∧
  (∀ (s : State) (o : Operands), s.operands = some o →
    exec (.hdrEnc .be) s = .next (handed s (.ok (.headerBytes
      [o.w.extractLsb' 8 8, o.w.extractLsb' 0 8, o.h.extractLsb' 8 8, o.h.extractLsb' 0 8])))) ∧
  decode 0x02#8 = .ok (.hdrEnc .le) ∧ decode 0x0A#8 = .ok (.hdrEnc .be) ∧
  ∀ r : Result, statusOf (.ok r) = some 0#2

/-- 41_header_codec.md R94: both dimensions from the first four bytes, whatever follows them;
TruncatedInput exactly below four bytes; words 0x03 and 0x0B. -/
def Obligations.HdrDecReadsTheDimensions : Prop :=
  (∀ (ord : Ord) (s : State) (o : Operands) (b0 b1 b2 b3 : Byte) (rest : List Byte),
    s.operands = some o → o.src = b0 :: b1 :: b2 :: b3 :: rest →
      exec (.hdrDec ord) s =
        .next (handed s (.ok (.dims (wordOfBytes b0 b1 ord) (wordOfBytes b2 b3 ord))))) ∧
  (∀ (ord : Ord) (s : State) (o : Operands), s.operands = some o → o.src.length < 4 →
    exec (.hdrDec ord) s = .next (handed s (.error .truncatedInput))) ∧
  decode 0x03#8 = .ok (.hdrDec .le) ∧ decode 0x0B#8 = .ok (.hdrDec .be) ∧
  statusOf (.error .truncatedInput) = some 2#2 ∧ ∀ r : Result, statusOf (.ok r) = some 0#2

/-- 41_header_codec.md R95: the two bytes of the word in the requested order; words 0x04, 0x0C. -/
def Obligations.WordSerWritesTheTwoBytes : Prop :=
  (∀ (s : State) (o : Operands), s.operands = some o →
    exec (.wordSer .le) s = .next (handed s (.ok (.wordBytes
      [o.word.extractLsb' 0 8, o.word.extractLsb' 8 8])))) ∧
  (∀ (s : State) (o : Operands), s.operands = some o →
    exec (.wordSer .be) s = .next (handed s (.ok (.wordBytes
      [o.word.extractLsb' 8 8, o.word.extractLsb' 0 8])))) ∧
  decode 0x04#8 = .ok (.wordSer .le) ∧ decode 0x0C#8 = .ok (.wordSer .be) ∧
  ∀ r : Result, statusOf (.ok r) = some 0#2

/-- 41_header_codec.md R96: one word from the first two bytes, whatever follows them; TruncatedInput
exactly below two bytes; words 0x05 and 0x0D. -/
def Obligations.WordDesReadsTheWord : Prop :=
  (∀ (ord : Ord) (s : State) (o : Operands) (b0 b1 : Byte) (rest : List Byte),
    s.operands = some o → o.src = b0 :: b1 :: rest →
      exec (.wordDes ord) s = .next (handed s (.ok (.word (wordOfBytes b0 b1 ord))))) ∧
  (∀ (ord : Ord) (s : State) (o : Operands), s.operands = some o → o.src.length < 2 →
    exec (.wordDes ord) s = .next (handed s (.error .truncatedInput))) ∧
  decode 0x05#8 = .ok (.wordDes .le) ∧ decode 0x0D#8 = .ok (.wordDes .be) ∧
  statusOf (.error .truncatedInput) = some 2#2 ∧ ∀ r : Result, statusOf (.ok r) = some 0#2

/-- 41_header_codec.md R92: round trips, the order mismatch, and the symmetric values. -/
def Obligations.ByteOrderLaws : Prop :=
  (∀ (v : Word16) (ord : Ord), ∃ b0 b1 : Byte, ser16 v ord = [b0, b1] ∧ des16 b0 b1 ord = v ∧
    des16 b0 b1 (otherOrd ord) = swapBytes v) ∧
  (∀ (b0 b1 : Byte) (ord : Ord), ser16 (des16 b0 b1 ord) ord = [b0, b1]) ∧
  ∀ v : Word16, v.extractLsb' 8 8 = v.extractLsb' 0 8 → ser16 v .le = ser16 v .be

/-- 41_header_codec.md R97: HDR_DEC of HDR_ENC's bytes, and HDR_ENC of HDR_DEC's dimensions. -/
def Obligations.HeaderRoundTrip : Prop :=
  (∀ (ord : Ord) (s t : State) (a b : Operands), s.operands = some a → t.operands = some b →
    ∃ hb : List Byte,
      exec (.hdrEnc ord) s = .next (handed s (.ok (.headerBytes hb))) ∧
      (b.src = hb → exec (.hdrDec ord) t = .next (handed t (.ok (.dims a.w a.h))))) ∧
  ∀ (ord : Ord) (s t : State) (a b : Operands), s.operands = some a → t.operands = some b →
    4 ≤ a.src.length → ∃ w h : Word16,
      exec (.hdrDec ord) s = .next (handed s (.ok (.dims w h))) ∧
      (b.w = w → b.h = h →
        exec (.hdrEnc ord) t = .next (handed t (.ok (.headerBytes (a.src.take 4)))))

/-- 70_reset_and_hazards.md R154, first consequence: a header read in the other order gives the
dimensions with their bytes exchanged, with status OK. -/
def Obligations.HeaderInTheOtherOrderIsSwapped : Prop :=
  ∀ (ord : Ord) (s t : State) (a b : Operands), s.operands = some a → t.operands = some b →
    ∃ hb : List Byte,
      exec (.hdrEnc ord) s = .next (handed s (.ok (.headerBytes hb))) ∧
      (b.src = hb → exec (.hdrDec (otherOrd ord)) t =
        .next (handed t (.ok (.dims (swapBytes a.w) (swapBytes a.h)))))

/-- 20_memory.md R43: which bits of an RGB565 word stand in which byte. -/
def Obligations.PixelWordBytesInEachOrder : Prop :=
  ∀ (s : State) (o : Operands), s.operands = some o → ∃ b0 b1 : Byte,
    exec (.wordSer .be) s = .next (handed s (.ok (.wordBytes [b0, b1]))) ∧
    exec (.wordSer .le) s = .next (handed s (.ok (.wordBytes [b1, b0]))) ∧
    b0 = o.word.extractLsb' 8 8 ∧ b1 = o.word.extractLsb' 0 8 ∧
    b0.extractLsb' 3 5 = o.word.extractLsb' 11 5 ∧
    b0.extractLsb' 0 3 = (o.word.extractLsb' 5 6).extractLsb' 3 3 ∧
    b1.extractLsb' 5 3 = (o.word.extractLsb' 5 6).extractLsb' 0 3 ∧
    b1.extractLsb' 0 5 = o.word.extractLsb' 0 5

/-- 42_frame_codec.md R111 and R116: FRAME_ENC of a raster out of range, or too big for SIZE_BITS, ends
with DimensionOutOfRange and no bytes, even when its area is 0. -/
def Obligations.FrameEncRefusesWhatDoesNotFit : Prop :=
  ∀ (ord : Ord) (s : State) (o : Operands), s.operands = some o →
    65535 < o.img.W ∨ 65535 < o.img.H ∨ 2 ^ s.sizeBits - 1 < 4 + 2 * o.img.W * o.img.H →
    exec (.frameEnc ord) s = .next (handed s (.error .dimensionOutOfRange))

/-- 20_memory.md R49 and R50: in range and fitting, FRAME_ENC's blob has the two dimensions at offsets
0 and 2, the word of pixel (x, y) at offset 4 + 2(yW + x), and nothing more. -/
def Obligations.FrameEncLaysOutTheBlob : Prop :=
  ∀ (ord : Ord) (s : State) (o : Operands), s.operands = some o →
    o.img.W ≤ 65535 → o.img.H ≤ 65535 → 4 + 2 * o.img.W * o.img.H ≤ 2 ^ s.sizeBits - 1 →
    ∃ out : List Byte,
      exec (.frameEnc ord) s = .next (handed s (.ok (.blob out))) ∧
      out.length = 4 + 2 * o.img.W * o.img.H ∧
      out.take 2 = ser16 (BitVec.ofNat 16 o.img.W) ord ∧
      (out.drop 2).take 2 = ser16 (BitVec.ofNat 16 o.img.H) ord ∧
      ∀ (x y : Nat) (c : RGB888), x < o.img.W → y < o.img.H →
        o.img.px[y * o.img.W + x]? = some c →
        (out.drop (4 + 2 * (y * o.img.W + x))).take 2 = ser16 (keptFields c) ord

/-- 30_encoding.md R68 and R69: the blob is the header and then the packed pixels in row-major order,
one word each, with no padding and no trailer. -/
def Obligations.BlobIsHeaderThenPixelWords : Prop :=
  ∀ (ord : Ord) (s : State) (o : Operands), s.operands = some o →
    o.img.W ≤ 65535 → o.img.H ≤ 65535 → 4 + 2 * o.img.W * o.img.H ≤ 2 ^ s.sizeBits - 1 →
    exec (.frameEnc ord) s = .next (handed s (.ok (.blob
      (ser16 (BitVec.ofNat 16 o.img.W) ord ++ ser16 (BitVec.ofNat 16 o.img.H) ord ++
        o.img.px.flatMap fun c => ser16 (keptFields c) ord))))

/-- 42_frame_codec.md R113, R115 and R118: FRAME_DEC's outcomes in their precedence, and the pixels of
the raster; words 0x07 and 0x0F. -/
def Obligations.FrameDecReadsTheBlob : Prop :=
  (∀ (ord : Ord) (s : State) (o : Operands), s.operands = some o → o.src.length < 4 →
    exec (.frameDec ord) s = .next (handed s (.error .truncatedInput))) ∧
  (∀ (ord : Ord) (s : State) (o : Operands) (b0 b1 b2 b3 : Byte) (rest : List Byte) (W H : Nat),
    s.operands = some o → o.src = b0 :: b1 :: b2 :: b3 :: rest →
    W = (wordOfBytes b0 b1 ord).toNat → H = (wordOfBytes b2 b3 ord).toNat →
    if 2 ^ s.sizeBits - 1 < 4 + 2 * W * H then
      exec (.frameDec ord) s = .next (handed s (.error .dimensionOutOfRange))
    else if o.src.length < 4 + 2 * W * H then
      exec (.frameDec ord) s = .next (handed s (.error .truncatedInput))
    else
      ∃ img : Raster,
        exec (.frameDec ord) s = .next (handed s (.ok (.raster img))) ∧
        img.W = W ∧ img.H = H ∧ img.px.length = W * H ∧
        ∀ x y : Nat, x < W → y < H → ∃ c0 c1 : Byte,
          o.src[4 + 2 * (y * W + x)]? = some c0 ∧
          o.src[4 + 2 * (y * W + x) + 1]? = some c1 ∧
          img.px[y * W + x]? = some (zeroFilled (wordOfBytes c0 c1 ord))) ∧
  decode 0x07#8 = .ok (.frameDec .le) ∧ decode 0x0F#8 = .ok (.frameDec .be) ∧
  statusOf (.error .dimensionOutOfRange) = some 1#2 ∧
  statusOf (.error .truncatedInput) = some 2#2 ∧ ∀ r : Result, statusOf (.ok r) = some 0#2

/-- 00_scope.md R10: with SIZE_BITS at least 33 the size check never fails; FRAME_ENC completes with a
blob for every raster in range, and FRAME_DEC never ends with DimensionOutOfRange. -/
def Obligations.SizeCheckIsVacuousFrom33Bits : Prop :=
  ∀ (ord : Ord) (s : State) (o : Operands), s.operands = some o → 33 ≤ s.sizeBits →
    (o.img.W ≤ 65535 → o.img.H ≤ 65535 → ∃ out : List Byte,
      exec (.frameEnc ord) s = .next (handed s (.ok (.blob out)))) ∧
    ∃ c : Completion, exec (.frameDec ord) s = .next (handed s c) ∧
      c ≠ .error .dimensionOutOfRange

/-- 42_frame_codec.md R117: decoding an encoded raster in the same order gives its dimensions and its
pixels, each quantised. -/
def Obligations.DecodeAfterEncodeQuantises : Prop :=
  ∀ (ord : Ord) (s t : State) (a b : Operands) (out : List Byte),
    s.operands = some a → t.operands = some b → t.sizeBits = s.sizeBits →
    exec (.frameEnc ord) s = .next (handed s (.ok (.blob out))) → b.src = out →
    ∃ img : Raster, exec (.frameDec ord) t = .next (handed t (.ok (.raster img))) ∧
      img.W = a.img.W ∧ img.H = a.img.H ∧ img.px = a.img.px.map maskPixel

/-- 42_frame_codec.md R119: encoding a decoded raster in the same order reproduces the first 4 + 2WH
bytes of the source, all of it when it has no trailing bytes. -/
def Obligations.EncodeAfterDecodeReproducesTheBlob : Prop :=
  ∀ (ord : Ord) (s t : State) (a b : Operands) (img : Raster),
    s.operands = some a → t.operands = some b → t.sizeBits = s.sizeBits →
    exec (.frameDec ord) s = .next (handed s (.ok (.raster img))) → b.img = img →
    exec (.frameEnc ord) t =
      .next (handed t (.ok (.blob (a.src.take (4 + 2 * img.W * img.H))))) ∧
    (a.src.length = 4 + 2 * img.W * img.H →
      exec (.frameEnc ord) t = .next (handed t (.ok (.blob a.src))))

/-- 20_memory.md R51: FRAME_DEC ignores what follows the declared blob, HDR_DEC what follows offset 3,
WORD_DES what follows offset 1. -/
def Obligations.TrailingBytesAreIgnored : Prop :=
  ∀ (ord : Ord) (s t : State) (a b : Operands) (more : List Byte),
    s.operands = some a → t.operands = some b → b.src = a.src ++ more →
    t.sizeBits = s.sizeBits →
    (∀ img : Raster, exec (.frameDec ord) s = .next (handed s (.ok (.raster img))) →
      exec (.frameDec ord) t = .next (handed t (.ok (.raster img)))) ∧
    (4 ≤ a.src.length → ∃ c : Completion,
      exec (.hdrDec ord) s = .next (handed s c) ∧ exec (.hdrDec ord) t = .next (handed t c)) ∧
    (2 ≤ a.src.length → ∃ c : Completion,
      exec (.wordDes ord) s = .next (handed s c) ∧ exec (.wordDes ord) t = .next (handed t c))

/-- 60_exceptions.md R130: every presented command that decodes completes, with one of the codes the
table gives its operation, and changes nothing but what it hands to the host. -/
def Obligations.CommandsEndWithTheirStatuses : Prop :=
  ∀ (i : Instr) (s : State) (o : Operands), s.operands = some o →
    ∃ (c : Completion) (code : BitVec 2),
      exec i s = .next (handed s c) ∧ statusOf c = some code ∧ code ∈ statusesOf i ∧
      (code = 0#2 ↔ ∃ r : Result, c = .ok r)

/-- 30_encoding.md R64 and R65, 42_frame_codec.md R120: an operation's outcome depends on its own
operands and SIZE_BITS alone, and PACK and UNPACK give the same in both orders. -/
def Obligations.OperationsReadOnlyTheirOperands : Prop :=
  (∀ (i : Instr) (s t : State) (a b : Operands), s.operands = some a → t.operands = some b →
    SameOperands i a b → s.sizeBits = t.sizeBits →
    ∃ c : Completion, exec i s = .next (handed s c) ∧ exec i t = .next (handed t c)) ∧
  ∀ s : State, exec (.pack .le) s = exec (.pack .be) s ∧ exec (.unpack .le) s = exec (.unpack .be) s

/-- Every step keeps the invariant: no command in progress between steps (10_state.md R28, R32) and
every delivered result of its stated form (10_state.md R23, R30, R31; 42_frame_codec.md R110, R112). -/
def Obligations.EveryStepKeepsTheInvariant : Prop :=
  ∀ s t : State, Inv s → step s = .next t → Inv t

/-- 20_memory.md R53: running the host's moves delivers, after what was delivered before, the outcomes
of the moves one after another, each as in a block that has done nothing before. -/
def Obligations.MovesTakeEffectOneByOne : Prop :=
  ∀ (n : Nat) (moves : List HostMove) (before : List Completion),
    Host.Core.run Sys2Proof.core moves.length ⟨n, none, moves, before⟩ =
      .next ⟨n, none, [], before ++ moves.flatMap (completionsAlone n)⟩

/-- 10_state.md R29: the same command has the same outcome whatever came before. -/
def Obligations.SameCommandSameOutcome : Prop :=
  ∀ (s t : State) (c : Command) (rest1 rest2 : List HostMove),
    s.hostMoves = .command c :: rest1 → t.hostMoves = .command c :: rest2 →
    s.sizeBits = t.sizeBits → ∃ o : Completion,
      step s = .next ⟨s.sizeBits, none, rest1, s.delivered ++ [o]⟩ ∧
      step t = .next ⟨t.sizeBits, none, rest2, t.delivered ++ [o]⟩

/-- The frame of a step, in every state: it answers a next state, SIZE_BITS is as before (10_state.md
R26), and at most one completion is added to what was delivered (R23; the list of completions is the
model's choice, log 2). That the first move is used up where there is one (20_memory.md R53), and that
the list stays empty where there is none, are the model's choices: one move per step (log 1), and an
idle step that changes nothing (log 7). -/
def Obligations.StepsOnlyAddToWhatWasDelivered : Prop :=
  ∀ s : State, ∃ (t : State) (new : List Completion), step s = .next t ∧
    t.sizeBits = s.sizeBits ∧ t.hostMoves = s.hostMoves.tail ∧
    t.delivered = s.delivered ++ new ∧ new.length ≤ 1

/-- 20_memory.md R40 and R41: one order covers the whole blob, so the blobs of a raster in the two
orders differ by exchanging the bytes of every pair. -/
def Obligations.WholeBlobInOneOrder : Prop :=
  ∀ (s t : State) (a b : Operands) (little big : List Byte),
    s.operands = some a → t.operands = some b → b.img = a.img →
    exec (.frameEnc .le) s = .next (handed s (.ok (.blob little))) →
    exec (.frameEnc .be) t = .next (handed t (.ok (.blob big))) →
    little.length = big.length ∧
    ∀ k : Nat, big[2 * k]? = little[2 * k + 1]? ∧ big[2 * k + 1]? = little[2 * k]?

/-- 70_reset_and_hazards.md R154, its example: the LE blob of a 2 by 1 raster read in the order BE, with
SIZE_BITS at least 19, the least for which the size check lets 262148 bytes pass. -/
def Obligations.LittleBlobReadBigIsTruncated : Prop :=
  ∀ (s : State) (o : Operands), s.operands = some o →
    o.src = [0x02#8, 0x00#8, 0x01#8, 0x00#8, 0x00#8, 0xF8#8, 0x1F#8, 0x00#8] →
    19 ≤ s.sizeBits →
    exec (.frameDec .be) s = .next (handed s (.error .truncatedInput)) ∧
    exec (.frameDec .le) s = .next (handed s (.ok (.raster
      ⟨2, 1, [⟨248#8, 0#8, 0#8⟩, ⟨0#8, 0#8, 248#8⟩], rfl⟩)))

/-- 42_frame_codec.md R111, R113 and R115: a raster of no area is encoded to its header alone and
decoded, from those four bytes and whatever follows, with the dimensions it had. -/
def Obligations.ZeroAreaKeepsItsDimensions : Prop :=
  ∀ (ord : Ord) (s t : State) (a b : Operands) (more : List Byte),
    s.operands = some a → t.operands = some b → a.img.W = 0 ∨ a.img.H = 0 →
    a.img.W ≤ 65535 → a.img.H ≤ 65535 → 3 ≤ s.sizeBits → 3 ≤ t.sizeBits →
    ∃ out : List Byte,
      exec (.frameEnc ord) s = .next (handed s (.ok (.blob out))) ∧ out.length = 4 ∧
      (b.src = out ++ more →
        exec (.frameDec ord) t = .next (handed t (.ok (.raster a.img))))
end

