-- ==== Sys2Proof/Laws/Operands.lean ====
section
/-! SUPPORT. One lemma per shared operation: byte order, source reads, the scan, the pixel codec. -/

namespace Sys2Proof.Machine

/-- The bits of two bytes side by side. -/
theorem join_getLsbD (a b : Byte) (k : Nat) :
    BitVec.getLsbD (w := 16) (a ++ b) k = if k < 8 then b.getLsbD k else a.getLsbD (k - 8) :=
  BitVec.getLsbD_append

/-- The bits of three fields side by side, as in an RGB565 word (30_encoding.md R66). -/
theorem fields_getLsbD (r5 : BitVec 5) (g6 : BitVec 6) (b5 : BitVec 5) (k : Nat) :
    BitVec.getLsbD (w := 16) (r5 ++ g6 ++ b5) k =
      if k < 5 then b5.getLsbD k else if k < 11 then g6.getLsbD (k - 5) else r5.getLsbD (k - 11) := by
  refine (BitVec.getLsbD_append (x := r5 ++ g6) (y := b5)).trans ?_
  rw [BitVec.getLsbD_append]
  by_cases h5 : k < 5
  · simp [h5]
  · by_cases h11 : k < 11
    · simp [h5, h11, show k - 5 < 6 by omega]
    · simp [h5, h11, show ¬ k - 5 < 6 by omega, show k - 5 - 6 = k - 11 by omega]

/-- Two words are equal when their two bytes are. -/
theorem word16_ext {a b : Word16} (hl : a.extractLsb' 0 8 = b.extractLsb' 0 8)
    (hh : a.extractLsb' 8 8 = b.extractLsb' 8 8) : a = b := by
  have e : ∀ v : Word16, v = v.extractLsb' 8 8 ++ v.extractLsb' 0 8 := by
    intro v
    refine BitVec.eq_of_getLsbD_eq fun k hk => ?_
    rw [join_getLsbD]
    simp only [BitVec.getLsbD_extractLsb']
    by_cases h : k < 8
    · simp [h]
    · simp [h, show k - 8 < 8 by omega, show 8 + (k - 8) = k by omega]
  rw [e a, e b, hl, hh]

@[simp] theorem ser16_length (v : Word16) (ord : Ord) : (ser16 v ord).length = 2 := by
  cases ord <;> rfl

@[simp] theorem headerBytes_length (w h : Word16) (ord : Ord) : (headerBytes w h ord).length = 4 := by
  simp [headerBytes]

/-- `des16` in the order LE puts the second byte above the first (41_header_codec.md R91). -/
theorem des16_le (b0 b1 : Byte) : des16 b0 b1 .le = b1 ++ b0 := by
  refine BitVec.eq_of_getLsbD_eq fun k hk => ?_
  rw [join_getLsbD]
  simp only [des16, BitVec.getLsbD_or, BitVec.getLsbD_shiftLeft, BitVec.getLsbD_setWidth]
  by_cases h : k < 8
  · simp [h, show k < 16 by omega]
  · simp [h, hk, show k - 8 < 16 by omega, BitVec.getLsbD_of_ge b0 k (by omega)]

/-- `des16` in the order BE puts the first byte above the second (41_header_codec.md R91). -/
theorem des16_be (b0 b1 : Byte) : des16 b0 b1 .be = b0 ++ b1 :=
  des16_le b1 b0

/-- The low byte of two bytes side by side. -/
theorem join_low (a b : Byte) : BitVec.extractLsb' (n := 16) 0 8 (a ++ b) = b := by
  refine BitVec.eq_of_getLsbD_eq fun k hk => ?_
  rw [BitVec.getLsbD_extractLsb', join_getLsbD]
  simp [hk]

/-- The high byte of two bytes side by side. -/
theorem join_high (a b : Byte) : BitVec.extractLsb' (n := 16) 8 8 (a ++ b) = a := by
  refine BitVec.eq_of_getLsbD_eq fun k hk => ?_
  rw [BitVec.getLsbD_extractLsb', join_getLsbD]
  simp [hk]

/-- Serializing and reading back in the same order (41_header_codec.md R92). -/
theorem des16_bytes (v : Word16) : des16 (v.extractLsb' 0 8) (v.extractLsb' 8 8) .le = v ∧
    des16 (v.extractLsb' 8 8) (v.extractLsb' 0 8) .be = v := by
  constructor
  · rw [des16_le]; exact word16_ext (join_low _ _) (join_high _ _)
  · rw [des16_be]; exact word16_ext (join_low _ _) (join_high _ _)

/-- Reading two bytes and serializing the word in the same order (41_header_codec.md R92). -/
theorem ser16_des16 (b0 b1 : Byte) (ord : Ord) : ser16 (des16 b0 b1 ord) ord = [b0, b1] := by
  cases ord
  · rw [des16_le]; simp only [ser16, join_low, join_high]
  · rw [des16_be]; simp only [ser16, join_low, join_high]

/-- `sizeOK` is the inequality of 42_frame_codec.md R112. -/
theorem sizeOK_iff (n W H : Nat) : sizeOK n W H = true ↔ 4 + 2 * W * H ≤ 2 ^ n - 1 := by
  unfold sizeOK blobSize
  exact decide_eq_true_iff

/-- Reading a row-by-row list: the entry of row `y`, column `x` (42_frame_codec.md R114). -/
theorem rows_getElem? {α : Type} (W x : Nat) (hx : x < W) :
    ∀ (rows : List (List α)) (y : Nat), (∀ r ∈ rows, r.length = W) →
      rows.flatten[y * W + x]? = rows[y]?.bind (fun r => r[x]?)
  | [], y, _ => by simp
  | r :: rows, 0, h => by
      have hr : r.length = W := h r (by simp)
      simp [List.getElem?_append, hr, hx]
  | r :: rows, y + 1, h => by
      have hr : r.length = W := h r (by simp)
      have e : (y + 1) * W + x - W = y * W + x := by
        rw [Nat.succ_mul]; omega
      have g : ¬ (y + 1) * W + x < W := by
        rw [Nat.succ_mul]; omega
      simp only [List.flatten_cons, List.getElem?_append, hr, g, if_false, e,
        List.getElem?_cons_succ]
      exact rows_getElem? W x hx rows y (fun q hq => h q (List.mem_cons_of_mem r hq))

/-- The scan at the index of a pixel is the function at that pixel. -/
theorem scan_getElem? {α : Type} {W H : Nat} (f : Fin W → Fin H → α) (x : Fin W) (y : Fin H) :
    (scan W H f)[pixelIndex W x.val y.val]? = some (f x y) := by
  rw [scan, List.flatMap, pixelIndex, rows_getElem? W x.val x.isLt]
  · simp
  · simp

/-- A list as long as the grid is the scan of its own entries. -/
theorem scan_eq_of_getElem {α : Type} {W H : Nat} (l : List α) (hl : l.length = W * H)
    (f : Fin W → Fin H → α)
    (hf : ∀ x y, l[pixelIndex W x.val y.val]? = some (f x y)) : scan W H f = l := by
  apply List.ext_getElem?
  intro k
  by_cases hk : k < W * H
  · have hW : 0 < W := Nat.pos_of_ne_zero (by rintro rfl; simp at hk)
    have hx : k % W < W := Nat.mod_lt k hW
    have hy : k / W < H := Nat.div_lt_of_lt_mul hk
    have e : pixelIndex W (k % W) (k / W) = k := by
      rw [pixelIndex, Nat.mul_comm]; exact Nat.div_add_mod k W
    have := scan_getElem? f ⟨k % W, hx⟩ ⟨k / W, hy⟩
    have h' := hf ⟨k % W, hx⟩ ⟨k / W, hy⟩
    simp only [e] at this h'
    rw [this, h']
  · rw [List.getElem?_eq_none (by rw [scan_length]; omega), List.getElem?_eq_none (by omega)]

/-- `pack` puts the kept bits of the channels side by side (40_pixel_codec.md R80, R86). -/
theorem pack_eq_fields (c : RGB888) :
    pack c = c.r.extractLsb' 3 5 ++ c.g.extractLsb' 2 6 ++ c.b.extractLsb' 3 5 := by
  refine BitVec.eq_of_getLsbD_eq fun k hk => ?_
  rw [fields_getLsbD]
  simp only [pack, BitVec.getLsbD_or, BitVec.getLsbD_shiftLeft, BitVec.getLsbD_setWidth,
    BitVec.getLsbD_extractLsb']
  by_cases h5 : k < 5
  · simp [h5, show k < 16 by omega, show k < 11 by omega]
  · by_cases h11 : k < 11
    · simp [h5, h11, hk, show k - 5 < 6 by omega, show k - 5 < 16 by omega]
    · simp [h5, h11, hk, show ¬ k - 5 < 6 by omega, show k - 11 < 5 by omega,
        show k - 11 < 16 by omega]

/-- A byte widened by zero fill, bit by bit. -/
theorem fill_getLsbD {n m : Nat} (f : BitVec n) (k : Nat) :
    (f ++ 0#m).getLsbD k = if k < m then false else f.getLsbD (k - m) := by
  rw [BitVec.getLsbD_append]
  simp

/-- `unpack` is each field with zeros below it (40_pixel_codec.md R81). -/
theorem unpack_eq_fill (p : Word16) :
    unpack p = ⟨p.extractLsb' 11 5 ++ 0#3, p.extractLsb' 5 6 ++ 0#2, p.extractLsb' 0 5 ++ 0#3⟩ := by
  have mask5 : ∀ k, BitVec.getLsbD 0x1F#16 k = decide (k < 5) := by
    intro k
    by_cases h : k < 16
    · revert k; decide
    · rw [BitVec.getLsbD_of_ge _ _ (by omega)]; simp; omega
  have mask6 : ∀ k, BitVec.getLsbD 0x3F#16 k = decide (k < 6) := by
    intro k
    by_cases h : k < 16
    · revert k; decide
    · rw [BitVec.getLsbD_of_ge _ _ (by omega)]; simp; omega
  rw [unpack, RGB888.mk.injEq]
  refine ⟨?_, ?_, ?_⟩
  · refine BitVec.eq_of_getLsbD_eq fun k hk => ?_
    refine Eq.trans ?_ (fill_getLsbD (m := 3) (p.extractLsb' 11 5) k).symm
    simp only [BitVec.getLsbD_setWidth, BitVec.getLsbD_shiftLeft, BitVec.getLsbD_and,
      BitVec.getLsbD_ushiftRight, BitVec.getLsbD_extractLsb', mask5]
    by_cases h : k < 3
    · simp [h]
    · simp [h, hk, show k < 16 by omega, show k - 3 < 5 by omega]
  · refine BitVec.eq_of_getLsbD_eq fun k hk => ?_
    refine Eq.trans ?_ (fill_getLsbD (m := 2) (p.extractLsb' 5 6) k).symm
    simp only [BitVec.getLsbD_setWidth, BitVec.getLsbD_shiftLeft, BitVec.getLsbD_and,
      BitVec.getLsbD_ushiftRight, BitVec.getLsbD_extractLsb', mask6]
    by_cases h : k < 2
    · simp [h]
    · simp [h, hk, show k < 16 by omega, show k - 2 < 6 by omega]
  · refine BitVec.eq_of_getLsbD_eq fun k hk => ?_
    refine Eq.trans ?_ (fill_getLsbD (m := 3) (p.extractLsb' 0 5) k).symm
    simp only [BitVec.getLsbD_setWidth, BitVec.getLsbD_shiftLeft, BitVec.getLsbD_and,
      BitVec.getLsbD_extractLsb', mask5]
    by_cases h : k < 3
    · simp [h]
    · simp [h, hk, show k < 16 by omega, show k - 3 < 5 by omega]

end Sys2Proof.Machine
end

