-- ==== Sys2Proof/Laws/State.lean ====
section
/-! SUPPORT. What each update of the state does to each field. -/

namespace Sys2Proof.Machine

@[simp] theorem withMoves_sizeBits (m : List HostMove) (s : State) :
    (s.withMoves m).sizeBits = s.sizeBits := rfl
@[simp] theorem withMoves_operands (m : List HostMove) (s : State) :
    (s.withMoves m).operands = s.operands := rfl
@[simp] theorem withMoves_hostMoves (m : List HostMove) (s : State) :
    (s.withMoves m).hostMoves = m := rfl
@[simp] theorem withMoves_delivered (m : List HostMove) (s : State) :
    (s.withMoves m).delivered = s.delivered := rfl

@[simp] theorem load_sizeBits (o : Operands) (s : State) : (s.load o).sizeBits = s.sizeBits := rfl
@[simp] theorem load_operands (o : Operands) (s : State) : (s.load o).operands = some o := rfl
@[simp] theorem load_hostMoves (o : Operands) (s : State) : (s.load o).hostMoves = s.hostMoves := rfl
@[simp] theorem load_delivered (o : Operands) (s : State) : (s.load o).delivered = s.delivered := rfl

@[simp] theorem toIdle_sizeBits (s : State) : s.toIdle.sizeBits = s.sizeBits := rfl
@[simp] theorem toIdle_operands (s : State) : s.toIdle.operands = none := rfl
@[simp] theorem toIdle_hostMoves (s : State) : s.toIdle.hostMoves = s.hostMoves := rfl
@[simp] theorem toIdle_delivered (s : State) : s.toIdle.delivered = s.delivered := rfl

@[simp] theorem complete_sizeBits (c : Completion) (s : State) :
    (s.complete c).sizeBits = s.sizeBits := rfl
@[simp] theorem complete_operands (c : Completion) (s : State) :
    (s.complete c).operands = none := rfl
@[simp] theorem complete_hostMoves (c : Completion) (s : State) :
    (s.complete c).hostMoves = s.hostMoves := rfl
@[simp] theorem complete_delivered (c : Completion) (s : State) :
    (s.complete c).delivered = s.delivered ++ [c] := rfl

@[simp] theorem answer_eq_complete (r : Result) (s : State) : s.answer r = s.complete (.ok r) := rfl
@[simp] theorem raise_eq_complete (e : CodecError) (s : State) : s.raise e = s.complete (.error e) :=
  rfl
@[simp] theorem abandon_eq_complete (s : State) : s.abandon = s.complete .abandoned := rfl

/-- A command's completion does not depend on what stood at the operand input before. -/
@[simp] theorem complete_load (c : Completion) (o : Operands) (s : State) :
    (s.load o).complete c = s.complete c := rfl

/-- The completion of a computed outcome. -/
def completionOf : Except CodecError Result → Completion
  | .ok r => .ok r
  | .error e => .error e

@[simp] theorem completionOf_ok (r : Result) : completionOf (.ok r) = .ok r := rfl
@[simp] theorem completionOf_error (e : CodecError) : completionOf (.error e) = .error e := rfl
@[simp] theorem completionOf_map_ok {α : Type} (f : α → Result) (a : α) :
    completionOf (Except.map f (.ok a)) = .ok (f a) := rfl
@[simp] theorem completionOf_map_error {α : Type} (f : α → Result) (e : CodecError) :
    completionOf (Except.map f (.error e)) = .error e := rfl

/-- With operands presented, `conclude` hands over exactly one completion. -/
theorem conclude_presented (f : Operands → Except CodecError Result) {s : State} {o : Operands}
    (h : s.operands = some o) : conclude f s = .next (s.complete (completionOf (f o))) := by
  cases hf : f o <;> simp [conclude, h, hf]

/-- With nothing presented, `conclude` changes nothing. -/
theorem conclude_idle (f : Operands → Except CodecError Result) {s : State}
    (h : s.operands = none) : conclude f s = .next s := by
  simp [conclude, h]

end Sys2Proof.Machine
end

