-- ==== Sys2Proof/Laws/Codec.lean ====
section
/-! SUPPORT. What the header and frame codecs answer, case by case. -/

namespace Sys2Proof.Machine

theorem wordAt_eq (src : List Byte) (off : Nat) (h : off + 2 ≤ src.length) (ord : Ord) :
    wordAt src off h ord = des16 (src[off]'(by omega)) (src[off + 1]'(by omega)) ord := rfl

/-- `decodeHeader` on a source that has the four bytes (41_header_codec.md R94). -/
theorem decodeHeader_cons (b0 b1 b2 b3 : Byte) (rest : List Byte) (ord : Ord) :
    decodeHeader (b0 :: b1 :: b2 :: b3 :: rest) ord =
      .ok (des16 b0 b1 ord, des16 b2 b3 ord) := by
  rw [decodeHeader, dif_neg (by simp)]
  rfl

/-- `decodeHeader` on a short source (41_header_codec.md R94). -/
theorem decodeHeader_short {src : List Byte} (h : src.length < 4) (ord : Ord) :
    decodeHeader src ord = .error .truncatedInput :=
  dif_pos h

/-- A source of at least four bytes, split at its header. -/
theorem split_header {src : List Byte} (h : ¬ src.length < 4) :
    ∃ b0 b1 b2 b3 rest, src = b0 :: b1 :: b2 :: b3 :: rest := by
  match src, h with
  | b0 :: b1 :: b2 :: b3 :: rest, _ => exact ⟨b0, b1, b2, b3, rest, rfl⟩
  | [], h => simp at h
  | [_], h => simp at h
  | [_, _], h => simp at h
  | [_, _, _], h => simp at h

/-- `decodeWord` on a source that has the two bytes (41_header_codec.md R96). -/
theorem decodeWord_cons (b0 b1 : Byte) (rest : List Byte) (ord : Ord) :
    decodeWord (b0 :: b1 :: rest) ord = .ok (des16 b0 b1 ord) := by
  rw [decodeWord, dif_neg (by simp)]
  rfl

/-- `decodeWord` on a short source (41_header_codec.md R96). -/
theorem decodeWord_short {src : List Byte} (h : src.length < 2) (ord : Ord) :
    decodeWord src ord = .error .truncatedInput :=
  dif_pos h

/-- The header's bytes, read back in the same order (41_header_codec.md R97). -/
theorem decodeHeader_headerBytes (w h : Word16) (ord : Ord) (rest : List Byte) :
    decodeHeader (headerBytes w h ord ++ rest) ord = .ok (w, h) := by
  cases ord <;> simp [headerBytes, ser16, decodeHeader_cons, des16_bytes]

/-- The pixel stream has two bytes per pixel (42_frame_codec.md R110). -/
theorem pixelStream_length (img : Raster) (ord : Ord) :
    (pixelStream img ord).length = 2 * img.W * img.H := by
  have h : ∀ l ∈ scan img.W img.H (fun x y => ser16 (pack (rasterGet img x y)) ord),
      l.length = 2 := by
    intro l hl
    simp only [scan, List.mem_flatMap, List.mem_map] at hl
    obtain ⟨y, -, x, -, rfl⟩ := hl
    exact ser16_length _ _
  rw [pixelStream, List.length_flatten, List.map_congr_left h]
  simp only [List.map_const', List.sum_replicate, scan_length, smul_eq_mul]
  ring

/-- The two bytes of a pixel stand at twice its index (20_memory.md R50). -/
theorem pixelStream_getElem? (img : Raster) (ord : Ord) (x : Fin img.W) (y : Fin img.H) (k : Nat)
    (hk : k < 2) : (pixelStream img ord)[2 * pixelIndex img.W x.val y.val + k]? =
      (ser16 (pack (rasterGet img x y)) ord)[k]? := by
  rw [pixelStream, Nat.mul_comm 2, rows_getElem? 2 k hk, scan_getElem?]
  · rfl
  · intro l hl
    simp only [scan, List.mem_flatMap, List.mem_map] at hl
    obtain ⟨y, -, x, -, rfl⟩ := hl
    exact ser16_length _ _

/-- FRAME_ENC refuses dimensions and sizes that do not fit (60_exceptions.md R131). -/
theorem frameEncode_error {n : Nat} {img : Raster}
    (h : img.W > 65535 ∨ img.H > 65535 ∨ 2 ^ n - 1 < 4 + 2 * img.W * img.H) (ord : Ord) :
    frameEncode n img ord = .error .dimensionOutOfRange := by
  unfold frameEncode
  split
  · rfl
  · rename_i hd
    rw [if_pos]
    have := sizeOK_iff n img.W img.H
    cases hs : sizeOK n img.W img.H
    · rfl
    · rw [hs] at this
      have := this.1 rfl
      omega

/-- FRAME_ENC's blob is the header and the pixel stream (30_encoding.md R69). -/
theorem frameEncode_ok {n : Nat} {img : Raster} (hW : img.W ≤ 65535) (hH : img.H ≤ 65535)
    (hs : 4 + 2 * img.W * img.H ≤ 2 ^ n - 1) (ord : Ord) :
    frameEncode n img ord =
      .ok (headerBytes (BitVec.ofNat 16 img.W) (BitVec.ofNat 16 img.H) ord ++
        pixelStream img ord) := by
  rw [frameEncode, if_neg (by omega), if_neg (by simp [(sizeOK_iff n _ _).2 hs])]

/-- Every case of FRAME_ENC. -/
theorem frameEncode_cases (n : Nat) (img : Raster) (ord : Ord) :
    ((img.W > 65535 ∨ img.H > 65535 ∨ 2 ^ n - 1 < 4 + 2 * img.W * img.H) ∧
      frameEncode n img ord = .error .dimensionOutOfRange) ∨
    (img.W ≤ 65535 ∧ img.H ≤ 65535 ∧ 4 + 2 * img.W * img.H ≤ 2 ^ n - 1 ∧
      frameEncode n img ord = .ok (headerBytes (BitVec.ofNat 16 img.W) (BitVec.ofNat 16 img.H) ord ++
        pixelStream img ord)) := by
  by_cases h : img.W > 65535 ∨ img.H > 65535 ∨ 2 ^ n - 1 < 4 + 2 * img.W * img.H
  · exact .inl ⟨h, frameEncode_error h ord⟩
  · exact .inr ⟨by omega, by omega, by omega, frameEncode_ok (by omega) (by omega) (by omega) ord⟩

/-- Every case of FRAME_DEC, in the order of 42_frame_codec.md R118. -/
theorem frameDecode_cases (n : Nat) (src : List Byte) (ord : Ord) :
    (src.length < 4 ∧ frameDecode n src ord = .error .truncatedInput) ∨
    ∃ w h, decodeHeader src ord = .ok (w, h) ∧
      ((2 ^ n - 1 < 4 + 2 * w.toNat * h.toNat ∧
          frameDecode n src ord = .error .dimensionOutOfRange) ∨
        (4 + 2 * w.toNat * h.toNat ≤ 2 ^ n - 1 ∧ src.length < 4 + 2 * w.toNat * h.toNat ∧
          frameDecode n src ord = .error .truncatedInput) ∨
        (4 + 2 * w.toNat * h.toNat ≤ 2 ^ n - 1 ∧
          ∃ hl : blobSize w.toNat h.toNat ≤ src.length,
            frameDecode n src ord = .ok (decodePixels src w.toNat h.toNat hl ord))) := by
  by_cases h4 : src.length < 4
  · exact .inl ⟨h4, by rw [frameDecode, decodeHeader_short h4]⟩
  · obtain ⟨b0, b1, b2, b3, rest, rfl⟩ := split_header h4
    refine .inr ⟨_, _, decodeHeader_cons b0 b1 b2 b3 rest ord, ?_⟩
    have hs := sizeOK_iff n (des16 b0 b1 ord).toNat (des16 b2 b3 ord).toNat
    simp only [frameDecode, decodeHeader_cons]
    cases hz : sizeOK n (des16 b0 b1 ord).toNat (des16 b2 b3 ord).toNat
    · rw [hz] at hs
      exact .inl ⟨by simpa using hs, rfl⟩
    · rw [hz] at hs
      refine .inr ?_
      by_cases hl : (b0 :: b1 :: b2 :: b3 :: rest).length <
          blobSize (des16 b0 b1 ord).toNat (des16 b2 b3 ord).toNat
      · exact .inl ⟨hs.1 rfl, hl, by rw [if_neg (by decide), dif_pos hl]⟩
      · exact .inr ⟨hs.1 rfl, Nat.le_of_not_lt hl, by rw [if_neg (by decide), dif_neg hl]⟩

/-- A pixel of the decoded raster is its unpacked word (42_frame_codec.md R113). -/
theorem decodePixels_getElem? (src : List Byte) (W H : Nat) (h : blobSize W H ≤ src.length)
    (ord : Ord) (x : Fin W) (y : Fin H) :
    (decodePixels src W H h ord).px[pixelIndex W x.val y.val]? =
      some (unpack (wordAt src (pixelOffset W x.val y.val)
        (Nat.le_trans (pixelOffset_le x.isLt y.isLt) h) ord)) :=
  scan_getElem? _ x y

/-- Two rasters are equal when their dimensions and pixels are. -/
theorem raster_ext {a b : Raster} (hW : a.W = b.W) (hH : a.H = b.H) (hp : a.px = b.px) : a = b := by
  cases a; cases b
  simp only at hW hH hp
  subst hW hH hp
  rfl

end Sys2Proof.Machine
end

