-- ==== Sys2Proof/Laws/PerInstr.lean ====
section
/-! SUPPORT. The family CommandWord: what the command word of each operation looks like. -/

namespace Sys2Proof.Laws.CommandWord

/-- 30_encoding.md R60 to R62: RSV is 0000, the ORD bit is the one of the byte order the operation
carries, and the OP field is the one of its table row. -/
def Statement (i : Instr) : Prop :=
  (encode i).extractLsb' 4 4 = 0#4 ∧
  ordOfBit ((encode i).getLsbD 3) = ordField i ∧
  (encode i).extractLsb' 0 3 = opField i

theorem pack (ord : Ord) : Statement (.pack ord) := by cases ord <;> exact ⟨rfl, rfl, rfl⟩
theorem unpack (ord : Ord) : Statement (.unpack ord) := by cases ord <;> exact ⟨rfl, rfl, rfl⟩
theorem hdrEnc (ord : Ord) : Statement (.hdrEnc ord) := by cases ord <;> exact ⟨rfl, rfl, rfl⟩
theorem hdrDec (ord : Ord) : Statement (.hdrDec ord) := by cases ord <;> exact ⟨rfl, rfl, rfl⟩
theorem wordSer (ord : Ord) : Statement (.wordSer ord) := by cases ord <;> exact ⟨rfl, rfl, rfl⟩
theorem wordDes (ord : Ord) : Statement (.wordDes ord) := by cases ord <;> exact ⟨rfl, rfl, rfl⟩
theorem frameEnc (ord : Ord) : Statement (.frameEnc ord) := by cases ord <;> exact ⟨rfl, rfl, rfl⟩
theorem frameDec (ord : Ord) : Statement (.frameDec ord) := by cases ord <;> exact ⟨rfl, rfl, rfl⟩

end Sys2Proof.Laws.CommandWord
end

