-- ==== Sys2Proof/Laws/Step.lean ====
section
/-! SUPPORT. What a command and a step can do, said once. -/

namespace Sys2Proof.Machine

/-- What a command computes from SIZE_BITS and its operands (30_encoding.md R65). -/
def computed (i : Instr) (sizeBits : Nat) (o : Operands) : Except CodecError Result :=
  match i with
  | .pack _ => .ok (.word (pack o.rgb))
  | .unpack _ => .ok (.rgb (unpack o.word))
  | .hdrEnc ord => .ok (.headerBytes (headerBytes o.w o.h ord))
  | .hdrDec ord => (decodeHeader o.src ord).map fun d => .dims d.1 d.2
  | .wordSer ord => .ok (.wordBytes (ser16 o.word ord))
  | .wordDes ord => (decodeWord o.src ord).map .word
  | .frameEnc ord => (frameEncode sizeBits o.img ord).map .blob
  | .frameDec ord => (frameDecode sizeBits o.src ord).map .raster

/-- Every meaning is the one shared operation on what the operation computes. -/
theorem exec_eq_conclude (i : Instr) (s : State) :
    exec i s = conclude (computed i s.sizeBits) s := by
  cases i <;> rfl

/-- Every presented command completes, with an outcome that its operands and SIZE_BITS fix
(42_frame_codec.md R120). -/
theorem exec_completes (i : Instr) {s : State} {o : Operands} (h : s.operands = some o) :
    exec i s = .next (s.complete (completionOf (computed i s.sizeBits o))) := by
  rw [exec_eq_conclude, conclude_presented _ h]

/-- With nothing presented no operation does anything. -/
theorem exec_idle (i : Instr) {s : State} (h : s.operands = none) : exec i s = .next s := by
  rw [exec_eq_conclude, conclude_idle _ h]

/-- Everything a step can do. -/
theorem step_cases (s : State) :
    (s.hostMoves = [] ∧ step s = .next s) ∨
    (∃ c rest i, s.hostMoves = .command c :: rest ∧ decode c.word = .ok i ∧
      step s = .next ((s.withMoves rest).complete (completionOf (computed i s.sizeBits c.operands)))) ∨
    (∃ c rest e, s.hostMoves = .command c :: rest ∧ decode c.word = .error e ∧
      step s = .next ((s.withMoves rest).complete (.error .illegalCommand))) ∨
    (∃ c rest, s.hostMoves = .resetDuring c :: rest ∧
      step s = .next ((s.withMoves rest).complete .abandoned)) ∨
    (∃ rest, s.hostMoves = .reset :: rest ∧ step s = .next (s.withMoves rest).toIdle) := by
  unfold step
  split <;> rename_i hm
  · exact .inl ⟨hm, rfl⟩
  · rename_i c rest
    split <;> rename_i hd
    · refine .inr (.inl ⟨c, rest, _, hm, hd, ?_⟩)
      rw [exec_completes _ rfl]
      rfl
    · exact .inr (.inr (.inl ⟨c, rest, _, hm, hd, rfl⟩))
  · rename_i c rest
    exact .inr (.inr (.inr (.inl ⟨c, rest, hm, rfl⟩)))
  · rename_i rest
    exact .inr (.inr (.inr (.inr ⟨rest, hm, rfl⟩)))

end Sys2Proof.Machine
end

