-- ==== Sys2Proof/Tests/Slice0.lean ====
section
/-! SUPPORT. Checks of the model against the vectors of 95_test_vectors.md, the ill-formed terms, and a
witness for the hypotheses of each statement. -/

namespace Sys2Proof.Tests

open Sys2Proof.Machine Sys2Proof.Safety

/-- A block with the given SIZE_BITS to which the host presents one command. -/
def presenting (sizeBits : Nat) (word : Byte) (o : Operands) : State :=
  ⟨sizeBits, none, [.command ⟨word, o⟩], []⟩

/-- What the host has received after one step. -/
def received (s : State) : List Completion :=
  match step s with
  | .next t => t.delivered
  | .fault _ => []
  | .refused _ => []

/-- What the command `word` delivers with SIZE_BITS = 64. -/
def deliver (word : Byte) (o : Operands) : List Completion :=
  received (presenting 64 word o)

def withRgb (r g b : Byte) : Operands := { Operands.zeros with rgb := ⟨r, g, b⟩ }
def withWord (p : Word16) : Operands := { Operands.zeros with word := p }
def withDims (w h : Word16) : Operands := { Operands.zeros with w := w, h := h }
def withImg (img : Raster) : Operands := { Operands.zeros with img := img }
def withSrc (src : List Byte) : Operands := { Operands.zeros with src := src }

/-- The raster of FE3 (95_test_vectors.md 2.7). -/
def imgFE3 : Raster :=
  ⟨2, 2, [⟨0x12#8, 0x34#8, 0x56#8⟩, ⟨255#8, 255#8, 255#8⟩, ⟨0#8, 0#8, 0#8⟩, ⟨128#8, 128#8, 128#8⟩], rfl⟩

/-- The raster FD1 decodes to (95_test_vectors.md 2.8). -/
def imgFD1 : Raster :=
  ⟨2, 2, [⟨16#8, 52#8, 80#8⟩, ⟨248#8, 252#8, 248#8⟩, ⟨0#8, 0#8, 0#8⟩, ⟨128#8, 128#8, 128#8⟩], rfl⟩

/-- The blob of FE3 and FD1, order LE. -/
def blobFE3 : List Byte :=
  [0x02#8, 0x00#8, 0x02#8, 0x00#8, 0xAA#8, 0x11#8, 0xFF#8, 0xFF#8, 0x00#8, 0x00#8, 0x10#8, 0x84#8]

/-- A raster of a given size, all black. -/
def black (W H : Nat) : Raster :=
  ⟨W, H, List.replicate (W * H) ⟨0#8, 0#8, 0#8⟩, List.length_replicate⟩

/-! ## The ill-formed term of each check -/

/-- X1: RSV = 0001. -/
theorem test_reserved_word_is_not_legal : legalWord 0b00010000#8 = false := by decide
/-- Three pixels do not make a 2 by 2 raster. -/
theorem test_raster_with_missing_pixel_is_refused :
    Raster.ofPixels? 2 2 [⟨0#8, 0#8, 0#8⟩, ⟨0#8, 0#8, 0#8⟩, ⟨0#8, 0#8, 0#8⟩] = none := by decide
theorem test_raster_with_its_pixels_is_accepted :
    Raster.ofPixels? 2 2 imgFE3.px = some imgFE3 := by decide
/-- R73: PACK with ORD = 1 is nothing an assembler writes. -/
theorem test_pack_big_is_not_canonical : (Instr.pack .be).canonical = false := by decide

/-! ## Words written out from 30_encoding.md R60 to R62: RSV, ORD, OP -/

theorem test_decode_pack : decode 0b00000000#8 = .ok (.pack .le) := by decide
theorem test_decode_unpack : decode 0b00001001#8 = .ok (.unpack .be) := by decide
theorem test_decode_hdrEnc : decode 0b00001010#8 = .ok (.hdrEnc .be) := by decide
theorem test_decode_hdrDec : decode 0b00000011#8 = .ok (.hdrDec .le) := by decide
theorem test_decode_wordSer : decode 0b00001100#8 = .ok (.wordSer .be) := by decide
theorem test_decode_wordDes : decode 0b00000101#8 = .ok (.wordDes .le) := by decide
theorem test_decode_frameEnc : decode 0b00000110#8 = .ok (.frameEnc .le) := by decide
theorem test_decode_frameDec : decode 0b00001111#8 = .ok (.frameDec .be) := by decide
/-- X2 -/
theorem test_decode_reserved : decode 0x8F#8 = .error (.reservedBits 0b1000#4) := by decide
theorem test_table_word : decodeTableWord 8 0x06 = some (.frameEnc .le) := by decide
/-- R73 -/
theorem test_assemble : assemble "HDR_DEC.BE" = some 0x0B#8 ∧ assemble "PACK.LE" = none := by decide
theorem test_disassemble : disassemble 0x08#8 = some "PACK" := by decide

/-! ## The operations -/

/-- P8 -/
theorem test_pack_truncates : deliver 0x00#8 (withRgb 0x12#8 0x34#8 0x56#8) = [.ok (.word 0x11AA#16)] := by
  decide
/-- P13 -/
theorem test_pack_ignores_order : deliver 0x08#8 (withRgb 255#8 0#8 0#8) = [.ok (.word 0xF800#16)] := by
  decide
/-- U2 -/
theorem test_unpack_zero_fills :
    deliver 0x01#8 (withWord 0xFFFF#16) = [.ok (.rgb ⟨248#8, 252#8, 248#8⟩)] := by decide
/-- U10 -/
theorem test_unpack_fields :
    deliver 0x01#8 (withWord 0xA5A5#16) = [.ok (.rgb ⟨160#8, 180#8, 40#8⟩)] := by decide
/-- HE3 -/
theorem test_hdrEnc_little : deliver 0x02#8 (withDims 0x1234#16 0xABCD#16) =
    [.ok (.headerBytes [0x34#8, 0x12#8, 0xCD#8, 0xAB#8])] := by decide
/-- HE4 -/
theorem test_hdrEnc_big : deliver 0x0A#8 (withDims 0x1234#16 0xABCD#16) =
    [.ok (.headerBytes [0x12#8, 0x34#8, 0xAB#8, 0xCD#8])] := by decide
/-- HD4 -/
theorem test_hdrDec_ignores_more : deliver 0x0B#8 (withSrc [0x02#8, 0x80#8, 0x01#8, 0xE0#8, 0x99#8]) =
    [.ok (.dims 640#16 480#16)] := by decide
/-- HD6 -/
theorem test_hdrDec_truncated : deliver 0x03#8 (withSrc [0x01#8, 0x00#8, 0x01#8]) =
    [.error .truncatedInput] := by decide
/-- WS1 -/
theorem test_wordSer_little : deliver 0x04#8 (withWord 0x8410#16) =
    [.ok (.wordBytes [0x10#8, 0x84#8])] := by decide
/-- WS2 -/
theorem test_wordSer_big : deliver 0x0C#8 (withWord 0x8410#16) =
    [.ok (.wordBytes [0x84#8, 0x10#8])] := by decide
/-- WD3 -/
theorem test_wordDes_little : deliver 0x05#8 (withSrc [0xAA#8, 0x11#8, 0x10#8, 0x84#8]) =
    [.ok (.word 0x11AA#16)] := by decide
/-- WD5 -/
theorem test_wordDes_truncated : deliver 0x05#8 (withSrc [0x7F#8]) = [.error .truncatedInput] := by
  decide
/-- FE3 -/
theorem test_frameEnc_little : deliver 0x06#8 (withImg imgFE3) = [.ok (.blob blobFE3)] := by decide
/-- FE8: out of range even though the area is 0 -/
theorem test_frameEnc_out_of_range : deliver 0x0E#8 (withImg ⟨65536, 0, [], rfl⟩) =
    [.error .dimensionOutOfRange] := by decide
/-- FD1 -/
theorem test_frameDec_little : deliver 0x07#8 (withSrc blobFE3) = [.ok (.raster imgFD1)] := by decide
/-- FD2: the same bytes in the other order -/
theorem test_frameDec_big : deliver 0x0F#8 (withSrc blobFE3) = [.error .truncatedInput] := by decide
/-- FD7: a zero area keeps its dimensions -/
theorem test_frameDec_zero_area : deliver 0x07#8 (withSrc [0x03#8, 0x00#8, 0x00#8, 0x00#8, 0x09#8]) =
    [.ok (.raster ⟨3, 0, [], rfl⟩)] := by decide

/-! ## Size check, illegal words, reset -/

/-- SZ2, SZ3, SZ6, SZ7 -/
theorem test_size_boundaries : sizeOK 32 46340 46341 = true ∧ sizeOK 32 46341 46341 = false ∧
    sizeOK 32 65535 65535 = false ∧ sizeOK 33 65535 65535 = true := by decide
/-- SZC1 and SZC2: the size check comes before the short stream -/
theorem test_precedence :
    received (presenting 32 0x07#8 (withSrc [0xFF#8, 0xFF#8, 0xFF#8, 0xFF#8])) =
      [.error .dimensionOutOfRange] ∧
    received (presenting 33 0x07#8 (withSrc [0xFF#8, 0xFF#8, 0xFF#8, 0xFF#8])) =
      [.error .truncatedInput] := by decide
/-- FE11 -/
theorem test_illegal_word : deliver 0x16#8 (withImg imgFE3) = [.error .illegalCommand] := by decide
/-- R130 -/
theorem test_status_codes : statusOf (.ok (.word 0#16)) = some 0#2 ∧
    statusOf (.error .dimensionOutOfRange) = some 1#2 ∧
    statusOf (.error .truncatedInput) = some 2#2 ∧
    statusOf (.error .illegalCommand) = some 3#2 := by decide
/-- R151: a reset during a command leaves no result -/
theorem test_reset_during_command :
    received ⟨64, none, [.resetDuring ⟨0x06#8, withImg imgFE3⟩], []⟩ = [.abandoned] := by decide
/-- R150: a reset of the idle block delivers nothing and leaves what was delivered -/
theorem test_reset_idle : received ⟨64, none, [.reset], [.abandoned]⟩ = [.abandoned] := by
  decide
/-- From reset, the step after `withFetchWord` runs the word (log 11). -/
theorem test_first_step_runs_the_word :
    received (State.reset.withFetchWord 8 0x03) = [.ok (.dims 0#16 0#16)] := by decide

/-! ## Witnesses: for each statement with hypotheses, states and operands that meet them together -/

/-- A block in which a command with the given operands is in progress. -/
def running (sizeBits : Nat) (o : Operands) : State :=
  ⟨sizeBits, some o, [], []⟩

/-- The state after an operation, where it answers one. -/
def afterExec (i : Instr) (s : State) : Option State :=
  match exec i s with
  | .next t => some t
  | .fault _ => none
  | .refused _ => none

theorem exec_of_afterExec {i : Instr} {s t : State} (h : afterExec i s = some t) :
    exec i s = .next t := by
  unfold afterExec at h
  split at h
  · rename_i u e
    rw [e, Option.some.inj h]
  · simp at h
  · simp at h

/-- PackAssemblesTheWord, PackFieldsAreTruncatedChannels, UnpackFillsWithZeros,
HdrEncWritesWidthThenHeight, WordSerWritesTheTwoBytes, PixelWordBytesInEachOrder and
CommandsEndWithTheirStatuses ask for presented operands only. -/
theorem witness_presented_operands :
    (running 64 (withRgb 255#8 0#8 7#8)).operands = some (withRgb 255#8 0#8 7#8) := rfl

/-- ReservedWordsRaiseIllegalCommand: the least and the greatest reserved word. -/
theorem witness_reserved_word :
    ((presenting 64 0x10#8 (withImg imgFE3)).hostMoves = [.command ⟨0x10#8, withImg imgFE3⟩] ∧
      (0x10#8).extractLsb' 4 4 ≠ 0#4) ∧
    ((presenting 64 0xFF#8 (withSrc [])).hostMoves = [.command ⟨0xFF#8, withSrc []⟩] ∧
      (0xFF#8).extractLsb' 4 4 ≠ 0#4) := by decide

/-- StepRunsTheDecodedCommand: the greatest legal word. -/
theorem witness_decoded_command :
    (presenting 64 0x0F#8 (withSrc blobFE3)).hostMoves = [.command ⟨0x0F#8, withSrc blobFE3⟩] ∧
      decode 0x0F#8 = .ok (.frameDec .be) := by decide

/-- IdleAndResetSteps: a state for each clause. -/
theorem witness_idle_and_reset :
    State.reset.hostMoves = [] ∧ State.reset.operands = none ∧
    (⟨64, none, [.reset], []⟩ : State).hostMoves = [.reset] ∧
    (⟨64, none, [.resetDuring ⟨0x06#8, withImg imgFE3⟩], []⟩ : State).hostMoves =
      [.resetDuring ⟨0x06#8, withImg imgFE3⟩] := ⟨rfl, rfl, rfl, rfl⟩

/-- PixelLanesAreIndependent: LP5, two pixels with the same kept bits; two words with the same fields. -/
theorem witness_same_kept_bits :
    (7#8).extractLsb' 3 5 = (0#8).extractLsb' 3 5 ∧ (3#8).extractLsb' 2 6 = (0#8).extractLsb' 2 6 ∧
    (running 64 (withRgb 7#8 3#8 7#8)).operands = some (withRgb 7#8 3#8 7#8) ∧
    (running 64 (withRgb 0#8 0#8 0#8)).operands = some (withRgb 0#8 0#8 0#8) ∧
    (0xF81F#16).extractLsb' 11 5 = (0xFFE0#16).extractLsb' 11 5 ∧
    (0x07E0#16).extractLsb' 5 6 = (0xFFE0#16).extractLsb' 5 6 ∧
    (0xF81F#16).extractLsb' 0 5 = (0x07FF#16).extractLsb' 0 5 := by decide

/-- UnpackThenPackIsTheIdentity: U9's word, then its pixel. -/
theorem witness_unpack_then_pack :
    exec (.unpack .le) (running 64 (withWord 0x1234#16)) =
      .next (handed (running 64 (withWord 0x1234#16)) (.ok (.rgb ⟨16#8, 68#8, 160#8⟩))) ∧
    (withRgb 16#8 68#8 160#8).rgb = ⟨16#8, 68#8, 160#8⟩ :=
  ⟨exec_of_afterExec (by decide), rfl⟩

/-- PackThenUnpackMasksTheChannels: LP1's pixel, then its word; a pixel of each kind. -/
theorem witness_pack_then_unpack :
    exec (.pack .be) (running 64 (withRgb 0x12#8 0x34#8 0x56#8)) =
      .next (handed (running 64 (withRgb 0x12#8 0x34#8 0x56#8)) (.ok (.word 0x11AA#16))) ∧
    (withWord 0x11AA#16).word = 0x11AA#16 ∧
    maskPixel ⟨16#8, 52#8, 80#8⟩ = ⟨16#8, 52#8, 80#8⟩ ∧ maskPixel ⟨7#8, 3#8, 7#8⟩ ≠ ⟨7#8, 3#8, 7#8⟩ :=
  ⟨exec_of_afterExec (by decide), rfl, by decide, by decide⟩

/-- HdrDecReadsTheDimensions: four bytes, more than four, three, none. -/
theorem witness_header_sources :
    (withSrc [0x34#8, 0x12#8, 0xCD#8, 0xAB#8]).src = 0x34#8 :: 0x12#8 :: 0xCD#8 :: 0xAB#8 :: [] ∧
    (withSrc [2#8, 0x80#8, 1#8, 0xE0#8, 0x99#8]).src = 2#8 :: 0x80#8 :: 1#8 :: 0xE0#8 :: [0x99#8] ∧
    (withSrc [1#8, 0#8, 1#8]).src.length < 4 ∧ (withSrc []).src.length < 4 := by decide

/-- WordDesReadsTheWord: two bytes, more than two, one, none. -/
theorem witness_word_sources :
    (withSrc [0x10#8, 0x84#8]).src = 0x10#8 :: 0x84#8 :: [] ∧
    (withSrc [0xAA#8, 0x11#8, 0x10#8]).src = 0xAA#8 :: 0x11#8 :: [0x10#8] ∧
    (withSrc [0x7F#8]).src.length < 2 ∧ (withSrc []).src.length < 2 := by decide

/-- ByteOrderLaws: a symmetric value. -/
theorem witness_symmetric_word : (0x1212#16).extractLsb' 8 8 = (0x1212#16).extractLsb' 0 8 := by decide

/-- HeaderRoundTrip and HeaderInTheOtherOrderIsSwapped: HE3's header, and HD4's with its dimensions. -/
theorem witness_header_round_trip :
    exec (.hdrEnc .le) (running 64 (withDims 0x1234#16 0xABCD#16)) =
      .next (handed (running 64 (withDims 0x1234#16 0xABCD#16))
        (.ok (.headerBytes [0x34#8, 0x12#8, 0xCD#8, 0xAB#8]))) ∧
    (withSrc [0x34#8, 0x12#8, 0xCD#8, 0xAB#8]).src = [0x34#8, 0x12#8, 0xCD#8, 0xAB#8] ∧
    exec (.hdrDec .be) (running 64 (withSrc [2#8, 0x80#8, 1#8, 0xE0#8, 0x99#8])) =
      .next (handed (running 64 (withSrc [2#8, 0x80#8, 1#8, 0xE0#8, 0x99#8]))
        (.ok (.dims 640#16 480#16))) ∧
    4 ≤ (withSrc [2#8, 0x80#8, 1#8, 0xE0#8, 0x99#8]).src.length ∧
    (withDims 640#16 480#16).w = 640#16 ∧ (withDims 640#16 480#16).h = 480#16 :=
  ⟨exec_of_afterExec (by decide), rfl, exec_of_afterExec (by decide), by decide, rfl, rfl⟩

/-- FrameEncRefusesWhatDoesNotFit: each clause just beyond its bound (W4, FE7, SZC5). -/
theorem witness_frames_that_do_not_fit :
    65535 < (withImg (black 65536 1)).img.W ∧ 65535 < (withImg (black 0 65536)).img.H ∧
    2 ^ (running 32 (withImg (black 65535 32769))).sizeBits - 1 <
      4 + 2 * (withImg (black 65535 32769)).img.W * (withImg (black 65535 32769)).img.H := by
  decide

/-- FrameEncLaysOutTheBlob and BlobIsHeaderThenPixelWords: FE3 with the least SIZE_BITS that holds 12
bytes, its last pixel; FE10; the greatest raster with SIZE_BITS = 33 (SZ7). -/
theorem witness_frames_that_fit :
    (imgFE3.W ≤ 65535 ∧ imgFE3.H ≤ 65535 ∧
      4 + 2 * imgFE3.W * imgFE3.H ≤ 2 ^ (running 4 (withImg imgFE3)).sizeBits - 1 ∧
      1 < imgFE3.W ∧ 1 < imgFE3.H ∧
      imgFE3.px[1 * imgFE3.W + 1]? = some ⟨128#8, 128#8, 128#8⟩) ∧
    4 + 2 * (black 65535 0).W * (black 65535 0).H ≤ 2 ^ 3 - 1 ∧
    (black 65535 65535).W ≤ 65535 ∧ (black 65535 65535).H ≤ 65535 ∧
    4 + 2 * (black 65535 65535).W * (black 65535 65535).H ≤ 2 ^ 33 - 1 := by
  decide

/-- FrameDecReadsTheBlob: a short header; FD1's source with a SIZE_BITS too small by one, without its
last byte, and whole. -/
theorem witness_frame_sources :
    (withSrc [0#8, 3#8]).src.length < 4 ∧ (withSrc [1#8, 0#8, 1#8]).src.length < 4 ∧
    blobFE3 = 0x02#8 :: 0x00#8 :: 0x02#8 :: 0x00#8 :: blobFE3.drop 4 ∧
    2 = (wordOfBytes 0x02#8 0x00#8 .le).toNat ∧
    2 ^ (running 3 (withSrc blobFE3)).sizeBits - 1 < 4 + 2 * 2 * 2 ∧
    4 + 2 * 2 * 2 ≤ 2 ^ (running 4 (withSrc blobFE3)).sizeBits - 1 ∧
    (withSrc (blobFE3.take 11)).src.length < 4 + 2 * 2 * 2 ∧
    ¬ (withSrc blobFE3).src.length < 4 + 2 * 2 * 2 := by decide

/-- SizeCheckIsVacuousFrom33Bits: the least such SIZE_BITS and the greatest raster. -/
theorem witness_33_bits : 33 ≤ (running 33 (withImg (black 65535 65535))).sizeBits ∧
    (withImg (black 65535 65535)).img.W ≤ 65535 ∧ (withImg (black 65535 65535)).img.H ≤ 65535 :=
  ⟨Nat.le_refl 33, Nat.le_refl 65535, Nat.le_refl 65535⟩

/-- DecodeAfterEncodeQuantises: FE3, then FD1. -/
theorem witness_decode_after_encode :
    exec (.frameEnc .le) (running 64 (withImg imgFE3)) =
      .next (handed (running 64 (withImg imgFE3)) (.ok (.blob blobFE3))) ∧
    (withSrc blobFE3).src = blobFE3 ∧
    (running 64 (withSrc blobFE3)).sizeBits = (running 64 (withImg imgFE3)).sizeBits :=
  ⟨exec_of_afterExec (by decide), rfl, rfl⟩

/-- EncodeAfterDecodeReproducesTheBlob: FD1, without and with a trailing byte. -/
theorem witness_encode_after_decode :
    exec (.frameDec .le) (running 64 (withSrc blobFE3)) =
      .next (handed (running 64 (withSrc blobFE3)) (.ok (.raster imgFD1))) ∧
    exec (.frameDec .le) (running 64 (withSrc (blobFE3 ++ [0x5A#8]))) =
      .next (handed (running 64 (withSrc (blobFE3 ++ [0x5A#8]))) (.ok (.raster imgFD1))) ∧
    (withImg imgFD1).img = imgFD1 ∧ blobFE3.length = 4 + 2 * imgFD1.W * imgFD1.H :=
  ⟨exec_of_afterExec (by decide), exec_of_afterExec (by decide), rfl, rfl⟩

/-- TrailingBytesAreIgnored: FD1's source with one byte more; the least sources of the two other
operations. -/
theorem witness_trailing_bytes :
    (withSrc (blobFE3 ++ [0x5A#8])).src = (withSrc blobFE3).src ++ [0x5A#8] ∧
    (running 64 (withSrc (blobFE3 ++ [0x5A#8]))).sizeBits = (running 64 (withSrc blobFE3)).sizeBits ∧
    4 ≤ (withSrc [1#8, 0#8, 1#8, 0#8]).src.length ∧ 2 ≤ (withSrc [0x10#8, 0x84#8]).src.length := by
  decide

/-- OperationsReadOnlyTheirOperands: two bundles that differ, but not in what PACK reads. -/
theorem witness_same_operands :
    SameOperands (.pack .le) (withRgb 1#8 2#8 3#8) { withRgb 1#8 2#8 3#8 with src := [9#8] } ∧
    withRgb 1#8 2#8 3#8 ≠ { withRgb 1#8 2#8 3#8 with src := [9#8] } :=
  ⟨rfl, by decide⟩

/-- EveryStepKeepsTheInvariant: a block that has delivered a pixel and is presented PACK. -/
theorem witness_invariant :
    Inv ⟨64, none, [.command ⟨0x00#8, withRgb 8#8 4#8 8#8⟩], [.ok (.rgb ⟨248#8, 252#8, 248#8⟩)]⟩ ∧
    step ⟨64, none, [.command ⟨0x00#8, withRgb 8#8 4#8 8#8⟩], [.ok (.rgb ⟨248#8, 252#8, 248#8⟩)]⟩ =
      .next ⟨64, none, [], [.ok (.rgb ⟨248#8, 252#8, 248#8⟩), .ok (.word 0x0821#16)]⟩ := by
  refine ⟨⟨rfl, ?_⟩, rfl⟩
  intro c hc
  rw [List.mem_singleton] at hc
  subst hc
  exact ⟨rfl, rfl, rfl⟩

/-- SameCommandSameOutcome: a fresh block and one that has delivered an error and has more to do. -/
theorem witness_same_command :
    (presenting 64 0x00#8 (withRgb 8#8 4#8 8#8)).hostMoves =
      [.command ⟨0x00#8, withRgb 8#8 4#8 8#8⟩] ∧
    (⟨64, none, [.command ⟨0x00#8, withRgb 8#8 4#8 8#8⟩, .reset], [.error .truncatedInput]⟩ :
      State).hostMoves = .command ⟨0x00#8, withRgb 8#8 4#8 8#8⟩ :: [.reset] := ⟨rfl, rfl⟩

/-- WholeBlobInOneOrder: FE3 and FE4. -/
theorem witness_two_orders :
    exec (.frameEnc .le) (running 64 (withImg imgFE3)) =
      .next (handed (running 64 (withImg imgFE3)) (.ok (.blob blobFE3))) ∧
    exec (.frameEnc .be) (running 64 (withImg imgFE3)) =
      .next (handed (running 64 (withImg imgFE3)) (.ok (.blob [0x00#8, 0x02#8, 0x00#8, 0x02#8, 0x11#8,
        0xAA#8, 0xFF#8, 0xFF#8, 0x00#8, 0x00#8, 0x84#8, 0x10#8]))) :=
  ⟨exec_of_afterExec (by decide), exec_of_afterExec (by decide)⟩

/-- LittleBlobReadBigIsTruncated: R154's source with the least SIZE_BITS. -/
theorem witness_little_blob :
    (withSrc [0x02#8, 0x00#8, 0x01#8, 0x00#8, 0x00#8, 0xF8#8, 0x1F#8, 0x00#8]).src =
      [0x02#8, 0x00#8, 0x01#8, 0x00#8, 0x00#8, 0xF8#8, 0x1F#8, 0x00#8] ∧
    19 ≤ (running 19 (withSrc [])).sizeBits := by decide

/-- ZeroAreaKeepsItsDimensions: W5's two rasters, the greatest width, and the least SIZE_BITS. -/
theorem witness_zero_area :
    ((black 0 5).W = 0 ∧ (black 0 5).H ≤ 65535) ∧ ((black 3 0).H = 0 ∧ (black 3 0).W ≤ 65535) ∧
    ((black 65535 0).H = 0 ∧ (black 65535 0).W ≤ 65535) ∧
    3 ≤ (running 3 (withImg (black 65535 0))).sizeBits := by decide

end Sys2Proof.Tests
end

section
/-! PROOFS. Shared by the statements: a presented command's outcome in the form they are stated in. -/

namespace Sys2Proof.Machine

open Sys2Proof.Safety

/-- `exec_completes` in the form of the statements: the completion is `handed` to the host. -/
theorem exec_eq_handed (i : Instr) {s : State} {o : Operands} (h : s.operands = some o) :
    exec i s = .next (handed s (completionOf (computed i s.sizeBits o))) :=
  exec_completes i h

end Sys2Proof.Machine
end

section
/-! PROOFS. The size check from SIZE_BITS = 33 on (00_scope.md R10, 42_frame_codec.md R112). -/

namespace Sys2Proof.Machine

/-- The greatest blob, 4 + 2 * 65535 * 65535 bytes, is below 2 ^ 33, so 33 bits hold every size. -/
theorem blobSize_fits_33_bits {n W H : Nat} (hn : 33 ≤ n) (hW : W ≤ 65535) (hH : H ≤ 65535) :
    4 + 2 * W * H ≤ 2 ^ n - 1 := by
  have hpow : 2 ^ 33 ≤ 2 ^ n := Nat.pow_le_pow_right (by decide) hn
  have harea : W * H ≤ 65535 * 65535 := Nat.mul_le_mul hW hH
  rw [Nat.mul_assoc]
  omega

/-- FRAME_ENC answers a blob for every raster in range. -/
theorem exists_frameEncode_ok {n : Nat} {img : Raster} (hn : 33 ≤ n) (hW : img.W ≤ 65535)
    (hH : img.H ≤ 65535) (ord : Ord) : ∃ out, frameEncode n img ord = .ok out :=
  ⟨_, frameEncode_ok hW hH (blobSize_fits_33_bits hn hW hH) ord⟩

/-- A source declares 16-bit dimensions, so its size check passes with 33 bits or more. -/
theorem frameDecode_ne_dimensionOutOfRange {n : Nat} (hn : 33 ≤ n) (src : List Byte) (ord : Ord) :
    frameDecode n src ord ≠ .error .dimensionOutOfRange := by
  obtain ⟨-, e⟩ | ⟨w, h, -, ⟨hbig, -⟩ | ⟨-, -, e⟩ | ⟨-, _, e⟩⟩ := frameDecode_cases n src ord
  · simp [e]
  · have hfits := blobSize_fits_33_bits hn (Nat.le_of_lt_succ w.isLt) (Nat.le_of_lt_succ h.isLt)
    exact absurd hfits (Nat.not_le_of_lt hbig)
  · simp [e]
  · simp [e]

/-- An error completion comes from the same error of the computation. -/
theorem completionOf_map_eq_error {α : Type} {f : α → Result} {x : Except CodecError α}
    {e : CodecError} (h : completionOf (x.map f) = .error e) : x = .error e := by
  cases x with
  | ok a => simp at h
  | error e' => simpa using h

/-- Settles O26: 33 bits hold the size of every raster that 16-bit dimensions can declare. -/
theorem sizeCheckIsVacuousFrom33Bits : Obligations.SizeCheckIsVacuousFrom33Bits := by
  intro ord s o ho hn
  constructor
  · intro hW hH
    obtain ⟨out, hout⟩ := exists_frameEncode_ok hn hW hH ord
    exact ⟨out, by rw [exec_eq_handed _ ho, computed, hout, completionOf_map_ok]⟩
  · refine ⟨_, exec_eq_handed _ ho, fun hc => ?_⟩
    exact frameDecode_ne_dimensionOutOfRange hn o.src ord (completionOf_map_eq_error hc)

end Sys2Proof.Machine
end

section
/-! PROOFS. What a host move hands over, and the step that takes it (10_state.md R23, R29; 20_memory.md R53). -/

namespace Sys2Proof.Machine

open Sys2Proof.Safety

/-- A presented word that decodes is executed with its operands in progress. -/
theorem step_command {s : State} {c : Command} {rest : List HostMove} {i : Instr}
    (hm : s.hostMoves = .command c :: rest) (hd : decode c.word = .ok i) :
    step s = exec i ((s.withMoves rest).load c.operands) := by
  simp only [step, hm, hd]

/-- Settles O5: the state that `step` passes to `exec` has the presented operands in progress. -/
theorem stepRunsTheDecodedCommand : Obligations.StepRunsTheDecodedCommand := by
  intro s w o rest i hm hd
  have hs := step_command (c := ⟨w, o⟩) hm hd
  exact hs

/-- The completion of a presented command, a function of SIZE_BITS, the word and the operands. -/
def commandCompletion (sizeBits : Nat) (c : Command) : Completion :=
  match decode c.word with
  | .ok i => completionOf (computed i sizeBits c.operands)
  | .error _ => .error .illegalCommand

theorem commandCompletion_of_decode_ok {c : Command} {i : Instr} (hd : decode c.word = .ok i)
    (n : Nat) : commandCompletion n c = completionOf (computed i n c.operands) := by
  simp only [commandCompletion, hd]

theorem commandCompletion_of_decode_error {c : Command} {e : DecodeReject}
    (hd : decode c.word = .error e) (n : Nat) :
    commandCompletion n c = .error .illegalCommand := by
  simp only [commandCompletion, hd]

/-- The completions that a step taking the move adds to those delivered. -/
def moveCompletions (sizeBits : Nat) : HostMove → List Completion
  | .command c => [commandCompletion sizeBits c]
  | .resetDuring _ => [.abandoned]
  | .reset => []

theorem moveCompletions_length_le_one (n : Nat) (m : HostMove) :
    (moveCompletions n m).length ≤ 1 := by
  cases m <;> simp [moveCompletions]

theorem step_of_no_move {s : State} (hm : s.hostMoves = []) : step s = .next s := by
  simp only [step, hm]

/-- A step that takes a move leaves the block idle, whatever was in progress or delivered before. -/
theorem step_of_move {s : State} {m : HostMove} {rest : List HostMove}
    (hm : s.hostMoves = m :: rest) :
    step s = .next ⟨s.sizeBits, none, rest, s.delivered ++ moveCompletions s.sizeBits m⟩ := by
  obtain ⟨hnil, -⟩ | ⟨c, _, i, hc, hd, hs⟩ | ⟨c, _, e, hc, hd, hs⟩ | ⟨c, _, hc, hs⟩ |
    ⟨_, hc, hs⟩ := step_cases s
  · rw [hnil] at hm
    cases hm
  · obtain ⟨rfl, rfl⟩ := List.cons.inj (hm.symm.trans hc)
    rw [hs, moveCompletions, commandCompletion_of_decode_ok hd]
    rfl
  · obtain ⟨rfl, rfl⟩ := List.cons.inj (hm.symm.trans hc)
    rw [hs, moveCompletions, commandCompletion_of_decode_error hd]
    rfl
  · obtain ⟨rfl, rfl⟩ := List.cons.inj (hm.symm.trans hc)
    exact hs
  · obtain ⟨rfl, rfl⟩ := List.cons.inj (hm.symm.trans hc)
    rw [hs, moveCompletions, List.append_nil]
    rfl

/-- A move taken alone causes the completions it always adds. -/
theorem completionsAlone_eq_moveCompletions (n : Nat) (m : HostMove) :
    completionsAlone n m = moveCompletions n m := by
  rw [completionsAlone, step_of_move rfl]
  rfl

/-- Settles O34: the completion that both steps add is the command's, a function of SIZE_BITS. -/
theorem sameCommandSameOutcome : Obligations.SameCommandSameOutcome := by
  intro s t c rest1 rest2 hs ht hn
  refine ⟨commandCompletion s.sizeBits c, step_of_move hs, ?_⟩
  rw [hn]
  exact step_of_move ht

/-- Settles O35, by whether the host has a move to make. -/
theorem stepsOnlyAddToWhatWasDelivered : Obligations.StepsOnlyAddToWhatWasDelivered := by
  intro s
  cases hm : s.hostMoves with
  | nil => exact ⟨s, [], step_of_no_move hm, rfl, hm, by simp, by simp⟩
  | cons m rest =>
    exact ⟨_, moveCompletions s.sizeBits m, step_of_move hm, rfl, rfl, rfl,
      moveCompletions_length_le_one _ m⟩

/-- A run starts with one step. -/
theorem run_succ_of_step {M : Host.Core} {s t : M.State} (h : M.step s = .next t) (k : Nat) :
    M.run (k + 1) s = M.run k t := by
  simp only [Host.Core.run, h]

/-- A run takes the host's first move and goes on with the others. -/
theorem run_cons_move (n k : Nat) (o : Option Operands) (m : HostMove) (rest : List HostMove)
    (before : List Completion) :
    Host.Core.run Sys2Proof.core (k + 1) ⟨n, o, m :: rest, before⟩ =
      Host.Core.run Sys2Proof.core k ⟨n, none, rest, before ++ moveCompletions n m⟩ :=
  run_succ_of_step (M := Sys2Proof.core) (step_of_move rfl) k

/-- Settles O33, by induction on the moves for every list delivered before them. -/
theorem movesTakeEffectOneByOne : Obligations.MovesTakeEffectOneByOne := by
  intro n moves
  induction moves with
  | nil =>
    intro before
    rw [List.flatMap_nil, List.append_nil]
    rfl
  | cons m rest ih =>
    intro before
    rw [List.length_cons, run_cons_move, ih, List.append_assoc, List.flatMap_cons,
      completionsAlone_eq_moveCompletions]

end Sys2Proof.Machine
end

section
/-! PROOFS. The statuses of each operation (60_exceptions.md R130). -/

namespace Sys2Proof.Machine

open Sys2Proof.Safety

/-- Both cases of reading a header (41_header_codec.md R94). -/
theorem decodeHeader_cases (src : List Byte) (ord : Ord) :
    decodeHeader src ord = .error .truncatedInput ∨ ∃ d, decodeHeader src ord = .ok d := by
  by_cases h : src.length < 4
  · exact .inl (decodeHeader_short h ord)
  · exact .inr ⟨_, dif_neg h⟩

/-- Both cases of reading a word (41_header_codec.md R96). -/
theorem decodeWord_cases (src : List Byte) (ord : Ord) :
    decodeWord src ord = .error .truncatedInput ∨ ∃ v, decodeWord src ord = .ok v := by
  by_cases h : src.length < 2
  · exact .inl (decodeWord_short h ord)
  · exact .inr ⟨_, dif_neg h⟩

/-- Status 0 is the status of a result, and of nothing else. -/
theorem statusOf_eq_zero_iff (c : Completion) : statusOf c = some 0#2 ↔ ∃ r, c = .ok r := by
  cases c with
  | ok r => simp [statusOf]
  | error e => cases e <;> simp [statusOf, errorCode]
  | abandoned => simp [statusOf]

/-- What an operation computes ends with a status of its row in the table of R130. -/
theorem computed_status (i : Instr) (n : Nat) (o : Operands) :
    ∃ code ∈ statusesOf i, statusOf (completionOf (computed i n o)) = some code := by
  cases i with
  | pack ord => exact ⟨0#2, by simp [statusesOf], rfl⟩
  | unpack ord => exact ⟨0#2, by simp [statusesOf], rfl⟩
  | hdrEnc ord => exact ⟨0#2, by simp [statusesOf], rfl⟩
  | hdrDec ord =>
    obtain e | ⟨d, e⟩ := decodeHeader_cases o.src ord
    · exact ⟨2#2, by simp [statusesOf], by rw [computed, e]; rfl⟩
    · exact ⟨0#2, by simp [statusesOf], by rw [computed, e]; rfl⟩
  | wordSer ord => exact ⟨0#2, by simp [statusesOf], rfl⟩
  | wordDes ord =>
    obtain e | ⟨v, e⟩ := decodeWord_cases o.src ord
    · exact ⟨2#2, by simp [statusesOf], by rw [computed, e]; rfl⟩
    · exact ⟨0#2, by simp [statusesOf], by rw [computed, e]; rfl⟩
  | frameEnc ord =>
    obtain ⟨-, e⟩ | ⟨-, -, -, e⟩ := frameEncode_cases n o.img ord
    · exact ⟨1#2, by simp [statusesOf], by rw [computed, e]; rfl⟩
    · exact ⟨0#2, by simp [statusesOf], by rw [computed, e]; rfl⟩
  | frameDec ord =>
    obtain ⟨-, e⟩ | ⟨_, _, -, ⟨-, e⟩ | ⟨-, -, e⟩ | ⟨-, _, e⟩⟩ := frameDecode_cases n o.src ord
    · exact ⟨2#2, by simp [statusesOf], by rw [computed, e]; rfl⟩
    · exact ⟨1#2, by simp [statusesOf], by rw [computed, e]; rfl⟩
    · exact ⟨2#2, by simp [statusesOf], by rw [computed, e]; rfl⟩
    · exact ⟨0#2, by simp [statusesOf], by rw [computed, e]; rfl⟩

/-- Settles O30: the status is that of what the operation computes, and 0 exactly for a result. -/
theorem commandsEndWithTheirStatuses : Obligations.CommandsEndWithTheirStatuses := by
  intro i s o ho
  obtain ⟨code, hmem, hstatus⟩ := computed_status i s.sizeBits o
  refine ⟨_, code, exec_eq_handed i ho, hstatus, hmem, ?_⟩
  rw [← statusOf_eq_zero_iff, hstatus, Option.some.injEq]

end Sys2Proof.Machine
end

section
/-! PROOFS. The invariant: every result that an operation computes has its stated form. -/

namespace Sys2Proof.Machine

open Sys2Proof.Safety

/-- The low bits of a byte widened by zero fill. -/
theorem extractLsb'_fill {n : Nat} (f : BitVec n) (m : Nat) :
    (f ++ 0#m).extractLsb' 0 m = 0#m := by
  refine BitVec.eq_of_getLsbD_eq fun k hk => ?_
  rw [BitVec.getLsbD_extractLsb', fill_getLsbD]
  simp [hk]

/-- 40_pixel_codec.md R81: the bits below each field are zero. -/
theorem unpack_quantised (p : Word16) : Quantised (unpack p) := by
  rw [unpack_eq_fill]
  exact ⟨extractLsb'_fill _ 3, extractLsb'_fill _ 2, extractLsb'_fill _ 3⟩

/-- Every pixel of a decoded raster is an unpacked word (42_frame_codec.md R113). -/
theorem decodePixels_quantised {src : List Byte} {W H : Nat} {h : blobSize W H ≤ src.length}
    {ord : Ord} {c : RGB888} (hc : c ∈ (decodePixels src W H h ord).px) : Quantised c := by
  simp only [decodePixels, scan, List.mem_flatMap, List.mem_map] at hc
  obtain ⟨y, -, x, -, rfl⟩ := hc
  exact unpack_quantised _

/-- In range and fitting, header and pixel stream make a blob of the declared length (30_encoding.md
R72, 42_frame_codec.md R110, R112). -/
theorem blobShaped_header_append_pixelStream {n : Nat} {img : Raster} (hW : img.W ≤ 65535)
    (hH : img.H ≤ 65535) (hs : 4 + 2 * img.W * img.H ≤ 2 ^ n - 1) (ord : Ord) :
    BlobShaped n (headerBytes (BitVec.ofNat 16 img.W) (BitVec.ofNat 16 img.H) ord ++
      pixelStream img ord) := by
  have hlen : (headerBytes (BitVec.ofNat 16 img.W) (BitVec.ofNat 16 img.H) ord ++
      pixelStream img ord).length = 4 + 2 * img.W * img.H := by
    rw [List.length_append, headerBytes_length, pixelStream_length]
  refine ⟨ord, _, _, List.take_left' (headerBytes_length _ _ ord), ?_, hlen.trans_le hs⟩
  rw [hlen, BitVec.toNat_ofNat, BitVec.toNat_ofNat, Nat.mod_eq_of_lt (Nat.lt_succ_of_le hW),
    Nat.mod_eq_of_lt (Nat.lt_succ_of_le hH)]

theorem frameEncode_legitimate (n : Nat) (img : Raster) (ord : Ord) :
    Legitimate n (completionOf ((frameEncode n img ord).map .blob)) := by
  obtain ⟨-, e⟩ | ⟨hW, hH, hs, e⟩ := frameEncode_cases n img ord
  · rw [e]
    trivial
  · rw [e]
    exact blobShaped_header_append_pixelStream hW hH hs ord

theorem frameDecode_legitimate (n : Nat) (src : List Byte) (ord : Ord) :
    Legitimate n (completionOf ((frameDecode n src ord).map .raster)) := by
  obtain ⟨-, e⟩ | ⟨w, h, -, ⟨-, e⟩ | ⟨-, -, e⟩ | ⟨hs, hl, e⟩⟩ := frameDecode_cases n src ord
  · rw [e]
    trivial
  · rw [e]
    trivial
  · rw [e]
    trivial
  · rw [e]
    exact ⟨Nat.le_of_lt_succ w.isLt, Nat.le_of_lt_succ h.isLt, hs, fun _ => decodePixels_quantised⟩

/-- Every operation computes an error or a result of its stated form (10_state.md R23, R30, R31). -/
theorem computed_legitimate (i : Instr) (n : Nat) (o : Operands) :
    Legitimate n (completionOf (computed i n o)) := by
  cases i with
  | pack ord => trivial
  | unpack ord => exact unpack_quantised o.word
  | hdrEnc ord => exact headerBytes_length o.w o.h ord
  | hdrDec ord =>
    obtain e | ⟨d, e⟩ := decodeHeader_cases o.src ord <;> rw [computed, e] <;> trivial
  | wordSer ord => exact ser16_length o.word ord
  | wordDes ord =>
    obtain e | ⟨v, e⟩ := decodeWord_cases o.src ord <;> rw [computed, e] <;> trivial
  | frameEnc ord => exact frameEncode_legitimate n o.img ord
  | frameDec ord => exact frameDecode_legitimate n o.src ord

theorem commandCompletion_legitimate (n : Nat) (c : Command) :
    Legitimate n (commandCompletion n c) := by
  cases hd : decode c.word with
  | ok i =>
    rw [commandCompletion_of_decode_ok hd]
    exact computed_legitimate i n c.operands
  | error e =>
    rw [commandCompletion_of_decode_error hd]
    trivial

theorem moveCompletions_legitimate {n : Nat} {m : HostMove} :
    ∀ c ∈ moveCompletions n m, Legitimate n c := by
  cases m with
  | command c => exact List.forall_mem_singleton.2 (commandCompletion_legitimate n c)
  | resetDuring c => exact List.forall_mem_singleton.2 trivial
  | reset => exact List.forall_mem_nil _

/-- Settles O32: a step changes nothing, or leaves the block idle and adds legitimate completions. -/
theorem everyStepKeepsTheInvariant : Obligations.EveryStepKeepsTheInvariant := by
  intro s t hinv hstep
  cases hm : s.hostMoves with
  | nil =>
    rw [step_of_no_move hm] at hstep
    cases hstep
    exact hinv
  | cons m rest =>
    rw [step_of_move hm] at hstep
    cases hstep
    obtain ⟨-, hlegit⟩ := hinv
    exact ⟨rfl, List.forall_mem_append.2 ⟨hlegit, moveCompletions_legitimate⟩⟩

end Sys2Proof.Machine
end

section
/-! PROOFS. The blob as one list of words, every word in the same byte order (20_memory.md R40, R49,
R50; 30_encoding.md R69). -/

namespace Sys2Proof.Machine

open Sys2Proof.Safety

/-- A command hands over what it computes, and nothing else. -/
theorem exec_eq_handed_iff (i : Instr) {s : State} {o : Operands} (h : s.operands = some o)
    (c : Completion) :
    exec i s = .next (handed s c) ↔ completionOf (computed i s.sizeBits o) = c := by
  rw [exec_eq_handed i h]
  simp [handed]

/-- The word of the fields that truncation keeps is PACK's word. -/
theorem pack_eq_keptFields (c : RGB888) : pack c = keptFields c :=
  pack_eq_fields c

/-- The bytes of words one after another, all in one order. -/
def serWords (ws : List Word16) (ord : Ord) : List Byte :=
  ws.flatMap fun v => ser16 v ord

theorem serWords_cons (v : Word16) (ws : List Word16) (ord : Ord) :
    serWords (v :: ws) ord = ser16 v ord ++ serWords ws ord := rfl

theorem serWords_length (ws : List Word16) (ord : Ord) :
    (serWords ws ord).length = 2 * ws.length := by
  simp [serWords, List.length_flatMap, Nat.mul_comm]

/-- The word at index `k` stands at byte offset `2 * k`. -/
theorem take_two_drop_serWords {v : Word16} (ord : Ord) :
    ∀ {ws : List Word16} {k : Nat}, ws[k]? = some v →
      ((serWords ws ord).drop (2 * k)).take 2 = ser16 v ord
  | [], k, h => by simp at h
  | u :: ws, 0, h => by
    obtain rfl : u = v := by simpa using h
    exact List.take_left' (ser16_length u ord)
  | u :: ws, k + 1, h => by
    have hdrop : (serWords (u :: ws) ord).drop (2 * (k + 1)) = (serWords ws ord).drop (2 * k) := by
      rw [Nat.mul_succ, Nat.add_comm, ← List.drop_drop, serWords_cons,
        List.drop_left' (ser16_length u ord)]
    rw [hdrop]
    exact take_two_drop_serWords ord (by simpa using h)

/-- The other order exchanges the two bytes of every word (41_header_codec.md R90). -/
theorem serWords_be_getElem? : ∀ (ws : List Word16) (k : Nat),
    (serWords ws .be)[2 * k]? = (serWords ws .le)[2 * k + 1]? ∧
      (serWords ws .be)[2 * k + 1]? = (serWords ws .le)[2 * k]?
  | [], _ => ⟨rfl, rfl⟩
  | _ :: _, 0 => ⟨rfl, rfl⟩
  | _ :: ws, k + 1 => serWords_be_getElem? ws k

/-- The words of a raster's blob: width, height, and the packed pixels in row-major order. -/
def blobWords (img : Raster) : List Word16 :=
  BitVec.ofNat 16 img.W :: BitVec.ofNat 16 img.H :: img.px.map pack

theorem blobWords_length (img : Raster) : (blobWords img).length = 2 + img.W * img.H := by
  simp only [blobWords, List.length_cons, List.length_map, img.size]
  omega

/-- The word of the pixel with index `i` comes after the two words of the header. -/
theorem blobWords_getElem?_pixel {img : Raster} {i : Nat} {c : RGB888} (h : img.px[i]? = some c) :
    (blobWords img)[i + 2]? = some (pack c) := by
  simp [blobWords, h]

theorem scan_map {α β : Type} (W H : Nat) (f : Fin W → Fin H → α) (g : α → β) :
    (scan W H f).map g = scan W H fun x y => g (f x y) := by
  simp [scan, List.map_flatMap, Function.comp_def]

/-- A raster lists its pixels in scan order (42_frame_codec.md R114). -/
theorem scan_rasterGet (img : Raster) : scan img.W img.H (rasterGet img) = img.px :=
  scan_eq_of_getElem img.px img.size _ fun _ _ => List.getElem?_eq_getElem _

theorem pixelStream_eq_serWords (img : Raster) (ord : Ord) :
    pixelStream img ord = serWords (img.px.map pack) ord := by
  rw [pixelStream, ← scan_map _ _ (rasterGet img) (fun c => ser16 (pack c) ord), scan_rasterGet,
    serWords, List.flatMap_map]
  rfl

/-- Header and pixel stream are the words of the blob in one order. -/
theorem header_append_pixelStream (img : Raster) (ord : Ord) :
    headerBytes (BitVec.ofNat 16 img.W) (BitVec.ofNat 16 img.H) ord ++ pixelStream img ord =
      serWords (blobWords img) ord := by
  rw [pixelStream_eq_serWords, headerBytes, blobWords, serWords_cons, serWords_cons,
    List.append_assoc]

/-- In range and fitting, FRAME_ENC computes the words of the blob in the command's order. -/
theorem frameEncode_eq_serWords {n : Nat} {img : Raster} (hW : img.W ≤ 65535) (hH : img.H ≤ 65535)
    (hs : 4 + 2 * img.W * img.H ≤ 2 ^ n - 1) (ord : Ord) :
    frameEncode n img ord = .ok (serWords (blobWords img) ord) := by
  rw [frameEncode_ok hW hH hs, header_append_pixelStream]

/-- A blob that FRAME_ENC completes with is made of the words of the blob. -/
theorem blob_eq_serWords {ord : Ord} {s : State} {o : Operands} {out : List Byte}
    (ho : s.operands = some o)
    (h : exec (.frameEnc ord) s = .next (handed s (.ok (.blob out)))) :
    out = serWords (blobWords o.img) ord := by
  rw [exec_eq_handed_iff _ ho, computed] at h
  obtain ⟨-, e⟩ | ⟨-, -, -, e⟩ := frameEncode_cases s.sizeBits o.img ord
  · simp [e] at h
  · rw [e, header_append_pixelStream] at h
    simpa using h.symm

/-- Settles O23: the dimensions are the words 0 and 1 of the blob, the pixel with index `i` is the
word `i + 2`, and the word `k` stands at byte offset `2 * k`. -/
theorem frameEncLaysOutTheBlob : Obligations.FrameEncLaysOutTheBlob := by
  intro ord s o ho hW hH hs
  refine ⟨serWords (blobWords o.img) ord, ?_, ?_, ?_, ?_, ?_⟩
  · rw [exec_eq_handed_iff _ ho, computed, frameEncode_eq_serWords hW hH hs, completionOf_map_ok]
  · rw [serWords_length, blobWords_length]
    ring
  · exact take_two_drop_serWords ord (k := 0) rfl
  · exact take_two_drop_serWords ord (k := 1) rfl
  · intro x y c _ _ hc
    have hoff : 4 + 2 * (y * o.img.W + x) = 2 * (y * o.img.W + x + 2) := by ring
    rw [hoff, take_two_drop_serWords ord (blobWords_getElem?_pixel hc), pack_eq_keptFields]

/-- Settles O36: both blobs are made of the same words, and the order exchanges the bytes of each. -/
theorem wholeBlobInOneOrder : Obligations.WholeBlobInOneOrder := by
  intro s t a b little big hs ht himg hle hbe
  obtain rfl := blob_eq_serWords hs hle
  obtain rfl := blob_eq_serWords ht hbe
  rw [himg]
  exact ⟨by rw [serWords_length, serWords_length], serWords_be_getElem? _⟩

end Sys2Proof.Machine
end

section
/-! PROOFS. The bytes of one word (20_memory.md R43). -/

namespace Sys2Proof.Machine

open Sys2Proof.Safety

/-- Bits of a field are bits of the word at the sum of the two positions. -/
theorem extractLsb'_extractLsb' {n i l j k : Nat} (v : BitVec n) (h : j + k ≤ l) :
    (v.extractLsb' i l).extractLsb' j k = v.extractLsb' (i + j) k := by
  refine BitVec.eq_of_getLsbD_eq fun m hm => ?_
  simp [BitVec.getLsbD_extractLsb', show j + m < l by omega, Nat.add_assoc]

/-- Settles O21: the bytes are the two halves of the word, so the upper one has red above the upper
green bits and the lower one the lower green bits above blue. -/
theorem pixelWordBytesInEachOrder : Obligations.PixelWordBytesInEachOrder := by
  intro s o ho
  refine ⟨_, _, exec_eq_handed (.wordSer .be) ho, exec_eq_handed (.wordSer .le) ho, rfl, rfl,
    ?_, ?_, ?_, ?_⟩
  · exact extractLsb'_extractLsb' o.word (by decide)
  · rw [extractLsb'_extractLsb' _ (by decide), extractLsb'_extractLsb' _ (by decide)]
  · rw [extractLsb'_extractLsb' _ (by decide), extractLsb'_extractLsb' _ (by decide)]
  · exact extractLsb'_extractLsb' o.word (by decide)

end Sys2Proof.Machine
end

section
/-! PROOFS. Bytes after those that an operation reads (20_memory.md R51). -/

namespace Sys2Proof.Machine

open Sys2Proof.Safety

theorem wordAt_append {src : List Byte} {off : Nat} (h : off + 2 ≤ src.length) (more : List Byte)
    (h' : off + 2 ≤ (src ++ more).length) (ord : Ord) :
    wordAt (src ++ more) off h' ord = wordAt src off h ord := by
  rw [wordAt_eq, wordAt_eq, List.getElem_append_left, List.getElem_append_left]

theorem decodeHeader_append {src : List Byte} (h : 4 ≤ src.length) (more : List Byte) (ord : Ord) :
    decodeHeader (src ++ more) ord = decodeHeader src ord := by
  obtain ⟨b0, b1, b2, b3, rest, rfl⟩ := split_header (Nat.not_lt.2 h)
  simp only [List.cons_append, decodeHeader_cons]

theorem decodeWord_append {src : List Byte} (h : 2 ≤ src.length) (more : List Byte) (ord : Ord) :
    decodeWord (src ++ more) ord = decodeWord src ord := by
  match src, h with
  | b0 :: b1 :: rest, _ => simp only [List.cons_append, decodeWord_cons]

/-- Every pixel word of the declared grid lies in the source without what follows it. -/
theorem decodePixels_append {src : List Byte} {W H : Nat} (h : blobSize W H ≤ src.length)
    (more : List Byte) (h' : blobSize W H ≤ (src ++ more).length) (ord : Ord) :
    decodePixels (src ++ more) W H h' ord = decodePixels src W H h ord := by
  simp only [decodePixels, wordAt_append (Nat.le_trans (pixelOffset_le (Fin.isLt _) (Fin.isLt _)) h)]

/-- FRAME_DEC of a source that declares a size that fits and has all its bytes (42_frame_codec.md
R113). -/
theorem frameDecode_ok {n : Nat} {src : List Byte} {ord : Ord} {w h : Word16}
    (hd : decodeHeader src ord = .ok (w, h)) (hs : 4 + 2 * w.toNat * h.toNat ≤ 2 ^ n - 1)
    (hl : blobSize w.toNat h.toNat ≤ src.length) :
    frameDecode n src ord = .ok (decodePixels src w.toNat h.toNat hl ord) := by
  simp only [frameDecode, hd]
  rw [if_neg (by simp [(sizeOK_iff n _ _).2 hs]), dif_neg (Nat.not_lt.2 hl)]

/-- A source that decodes gives the same raster with more bytes after it. -/
theorem frameDecode_append {n : Nat} {src : List Byte} {ord : Ord} {img : Raster}
    (hok : frameDecode n src ord = .ok img) (more : List Byte) :
    frameDecode n (src ++ more) ord = .ok img := by
  obtain ⟨-, e⟩ | ⟨w, h, hd, ⟨-, e⟩ | ⟨-, -, e⟩ | ⟨hs, hl, e⟩⟩ := frameDecode_cases n src ord
  · simp [e] at hok
  · simp [e] at hok
  · simp [e] at hok
  · have h4 : 4 ≤ src.length := Nat.le_trans (Nat.le_add_right 4 _) hl
    have hl' : blobSize w.toNat h.toNat ≤ (src ++ more).length :=
      hl.trans (List.length_append ▸ Nat.le_add_right _ _)
    rw [frameDecode_ok ((decodeHeader_append h4 more ord).trans hd) hs hl', ← hok, e,
      decodePixels_append hl more hl']

/-- A raster completion comes from the same raster of the computation. -/
theorem completionOf_map_raster_eq_ok {x : Except CodecError Raster} {img : Raster}
    (h : completionOf (x.map .raster) = .ok (.raster img)) : x = .ok img := by
  cases x with
  | ok img' => simpa using h
  | error e => simp at h

/-- Settles O29: the bytes each operation reads stand in the source without what follows it. -/
theorem trailingBytesAreIgnored : Obligations.TrailingBytesAreIgnored := by
  intro ord s t a b more hs ht hsrc hn
  refine ⟨fun img hok => ?_, fun h4 => ⟨_, exec_eq_handed _ hs, ?_⟩,
    fun h2 => ⟨_, exec_eq_handed _ hs, ?_⟩⟩
  · rw [exec_eq_handed_iff _ hs] at hok
    have hdec := completionOf_map_raster_eq_ok hok
    rw [exec_eq_handed_iff _ ht, computed, hsrc, hn, frameDecode_append hdec, completionOf_map_ok]
  · rw [exec_eq_handed _ ht, computed, computed, hsrc, decodeHeader_append h4]
  · rw [exec_eq_handed _ ht, computed, computed, hsrc, decodeWord_append h2]

end Sys2Proof.Machine
end

section
/-! PROOFS. The blob as header and packed pixels (30_encoding.md R68, R69). -/

namespace Sys2Proof.Machine

open Sys2Proof.Safety

/-- The words of the blob are the header and the packed pixels, with nothing between or after them. -/
theorem serWords_blobWords (img : Raster) (ord : Ord) :
    serWords (blobWords img) ord =
      ser16 (BitVec.ofNat 16 img.W) ord ++ ser16 (BitVec.ofNat 16 img.H) ord ++
        img.px.flatMap fun c => ser16 (keptFields c) ord := by
  rw [blobWords, serWords_cons, serWords_cons, serWords, List.flatMap_map, List.append_assoc]
  simp only [pack_eq_keptFields]

/-- Settles O24: FRAME_ENC computes the words of the blob in the command's order. -/
theorem blobIsHeaderThenPixelWords : Obligations.BlobIsHeaderThenPixelWords := by
  intro ord s o ho hW hH hs
  rw [exec_eq_handed_iff _ ho, computed, frameEncode_eq_serWords hW hH hs, completionOf_map_ok,
    serWords_blobWords]

end Sys2Proof.Machine
end

section
/-! PROOFS. The operands an operation reads (30_encoding.md R64, R65; 42_frame_codec.md R120). -/

namespace Sys2Proof.Machine

open Sys2Proof.Safety

/-- What an operation computes depends on the operands of its row in R65 only. -/
theorem computed_congr {i : Instr} {a b : Operands} (h : SameOperands i a b) (n : Nat) :
    computed i n a = computed i n b := by
  cases i with
  | pack ord => rw [computed, computed, show a.rgb = b.rgb from h]
  | unpack ord => rw [computed, computed, show a.word = b.word from h]
  | hdrEnc ord =>
    obtain ⟨hw, hh⟩ : a.w = b.w ∧ a.h = b.h := h
    rw [computed, computed, hw, hh]
  | hdrDec ord => rw [computed, computed, show a.src = b.src from h]
  | wordSer ord => rw [computed, computed, show a.word = b.word from h]
  | wordDes ord => rw [computed, computed, show a.src = b.src from h]
  | frameEnc ord => rw [computed, computed, show a.img = b.img from h]
  | frameDec ord => rw [computed, computed, show a.src = b.src from h]

/-- PACK ignores the ORD bit (30_encoding.md R64). -/
theorem exec_pack_ord (ord ord' : Ord) (s : State) : exec (.pack ord) s = exec (.pack ord') s := rfl

/-- UNPACK ignores the ORD bit (30_encoding.md R64). -/
theorem exec_unpack_ord (ord ord' : Ord) (s : State) :
    exec (.unpack ord) s = exec (.unpack ord') s := rfl

/-- Settles O31: both commands compute the same from operands on which their bundles agree. -/
theorem operationsReadOnlyTheirOperands : Obligations.OperationsReadOnlyTheirOperands := by
  refine ⟨fun i s t a b hs ht hab hn => ⟨_, exec_eq_handed i hs, ?_⟩,
    fun s => ⟨exec_pack_ord .le .be s, exec_unpack_ord .le .be s⟩⟩
  rw [exec_eq_handed i ht, computed_congr hab, hn]

end Sys2Proof.Machine
end

section
/-! PROOFS. Command words and their fields (30_encoding.md R60 to R63). -/

namespace Sys2Proof

/-- The word of every operation has the fields of its table row. -/
theorem encode_fields (i : Instr) : Laws.CommandWord.Statement i := by
  cases i with
  | pack ord => exact Laws.CommandWord.pack ord
  | unpack ord => exact Laws.CommandWord.unpack ord
  | hdrEnc ord => exact Laws.CommandWord.hdrEnc ord
  | hdrDec ord => exact Laws.CommandWord.hdrDec ord
  | wordSer ord => exact Laws.CommandWord.wordSer ord
  | wordDes ord => exact Laws.CommandWord.wordDes ord
  | frameEnc ord => exact Laws.CommandWord.frameEnc ord
  | frameDec ord => exact Laws.CommandWord.frameDec ord

theorem legalWord_iff (cmd : Byte) : legalWord cmd = true ↔ cmd.extractLsb' 4 4 = 0#4 :=
  beq_iff_eq

/-- A legal word decodes to the operation of its OP field. -/
theorem decode_of_legal {cmd : Byte} (h : cmd.extractLsb' 4 4 = 0#4) :
    decode cmd = .ok (instrOfOp ((cmd.extractLsb' 0 3).getLsbD 2) ((cmd.extractLsb' 0 3).getLsbD 1)
      ((cmd.extractLsb' 0 3).getLsbD 0) (ordOfBit (cmd.getLsbD 3))) := by
  rw [decode, if_pos ((legalWord_iff cmd).2 h)]
  simp

theorem decode_of_reserved {cmd : Byte} (h : cmd.extractLsb' 4 4 ≠ 0#4) :
    decode cmd = .error (.reservedBits (cmd.extractLsb' 4 4)) :=
  if_neg (mt (legalWord_iff cmd).1 h)

/-- An operation is the one of its own OP field and byte order. -/
theorem instrOfOp_opField (i : Instr) :
    instrOfOp ((opField i).getLsbD 2) ((opField i).getLsbD 1) ((opField i).getLsbD 0)
      (ordField i) = i := by
  cases i <;> simp [opField, ordField, instrOfOp]

theorem ordField_instrOfOp (b2 b1 b0 : Bool) (ord : Ord) :
    ordField (instrOfOp b2 b1 b0 ord) = ord := by
  cases b2 <;> cases b1 <;> cases b0 <;> rfl

/-- The operation of an OP field has that field. -/
theorem opField_instrOfOp (op : BitVec 3) (ord : Ord) :
    opField (instrOfOp (op.getLsbD 2) (op.getLsbD 1) (op.getLsbD 0) ord) = op := by
  revert op
  cases ord <;> decide

theorem ordOfBit_injective : Function.Injective ordOfBit := by
  decide

/-- A word decodes to an instruction exactly when its three fields are those of the instruction. -/
theorem decode_eq_ok_iff_fields (cmd : Byte) (i : Instr) :
    decode cmd = .ok i ↔ cmd.extractLsb' 4 4 = 0#4 ∧ ordOfBit (cmd.getLsbD 3) = ordField i ∧
      cmd.extractLsb' 0 3 = opField i := by
  constructor
  · intro h
    by_cases hrsv : cmd.extractLsb' 4 4 = 0#4
    · rw [decode_of_legal hrsv] at h
      cases h
      rw [ordField_instrOfOp, opField_instrOfOp]
      exact ⟨hrsv, rfl, rfl⟩
    · rw [decode_of_reserved hrsv] at h
      cases h
  · rintro ⟨hrsv, hord, hop⟩
    rw [decode_of_legal hrsv, hord, hop, instrOfOp_opField]

/-- RSV, ORD and OP together are the whole word. -/
theorem byte_ext_fields {a b : Byte} (hrsv : a.extractLsb' 4 4 = b.extractLsb' 4 4)
    (hord : a.getLsbD 3 = b.getLsbD 3) (hop : a.extractLsb' 0 3 = b.extractLsb' 0 3) : a = b := by
  refine BitVec.eq_of_getLsbD_eq fun k hk => ?_
  rcases Nat.lt_trichotomy k 3 with hlt | rfl | hgt
  · simpa [hlt] using congrArg (BitVec.getLsbD · k) hop
  · exact hord
  · simpa [show k - 4 < 4 by omega, show 4 + (k - 4) = k by omega] using
      congrArg (BitVec.getLsbD · (k - 4)) hrsv

/-- Decoding the word of an instruction gives the instruction back. -/
theorem decode_encode (i : Instr) : decode (encode i) = .ok i :=
  (decode_eq_ok_iff_fields _ i).2 (encode_fields i)

/-- Settles O3: a word that decodes to the instruction has the three fields of its encoding. -/
theorem decodeAndEncodeAgree : Obligations.DecodeAndEncodeAgree := by
  intro i cmd
  constructor
  · intro h
    obtain ⟨hrsv, hord, hop⟩ := (decode_eq_ok_iff_fields cmd i).1 h
    obtain ⟨hrsv', hord', hop'⟩ := encode_fields i
    exact byte_ext_fields (hrsv.trans hrsv'.symm) (ordOfBit_injective (hord.trans hord'.symm))
      (hop.trans hop'.symm)
  · rintro rfl
    exact decode_encode i

/-- Settles O1: each of the words is the encoding of its instruction. -/
theorem commandWordsSelectTheirOperations : Obligations.CommandWordsSelectTheirOperations :=
  ⟨decode_encode (.pack .le), decode_encode (.pack .be),
    decode_encode (.unpack .le), decode_encode (.unpack .be),
    decode_encode (.hdrEnc .le), decode_encode (.hdrEnc .be),
    decode_encode (.hdrDec .le), decode_encode (.hdrDec .be),
    decode_encode (.wordSer .le), decode_encode (.wordSer .be),
    decode_encode (.wordDes .le), decode_encode (.wordDes .be),
    decode_encode (.frameEnc .le), decode_encode (.frameEnc .be),
    decode_encode (.frameDec .le), decode_encode (.frameDec .be), fun _ => ⟨rfl, rfl⟩⟩

end Sys2Proof
end

section
/-! PROOFS. Reserved words (30_encoding.md R63, 60_exceptions.md R133). -/

namespace Sys2Proof.Machine

/-- A number of 8 bits has RSV 0000 exactly below 16. -/
theorem extractLsb'_ofNat_eq_zero_iff {n : Nat} (hn : n < 256) :
    (BitVec.ofNat 8 n).extractLsb' 4 4 = 0#4 ↔ n < 16 := by
  rw [← BitVec.toNat_inj]
  simp [BitVec.extractLsb'_toNat, Nat.shiftRight_eq_div_pow]
  omega

/-- Among the numbers of 8 bits, those from 16 on do not decode. -/
theorem decodeTableWord_isNone {n : Nat} (hn : n < 256) :
    (decodeTableWord 8 n).isNone = decide (16 ≤ n) := by
  rw [decodeTableWord, if_pos ⟨Nat.le_refl 8, hn⟩]
  by_cases hlt : n < 16
  · rw [decode_of_legal ((extractLsb'_ofNat_eq_zero_iff hn).2 hlt)]
    simp [hlt]
  · rw [decode_of_reserved (mt (extractLsb'_ofNat_eq_zero_iff hn).1 hlt)]
    simp [Nat.le_of_not_lt hlt]

theorem reserved_words_count :
    ((List.range 256).filter fun n => (decodeTableWord 8 n).isNone).length = 240 := by
  have h : ∀ n ∈ List.range 256, (decodeTableWord 8 n).isNone = decide (16 ≤ n) :=
    fun n hn => decodeTableWord_isNone (List.mem_range.1 hn)
  rw [List.filter_congr h]
  rfl

/-- Settles O2: the step's completion is that of a word that does not decode. -/
theorem reservedWordsRaiseIllegalCommand : Obligations.ReservedWordsRaiseIllegalCommand := by
  refine ⟨fun s w o rest hm hw => ?_, rfl, reserved_words_count⟩
  rw [step_of_move hm, moveCompletions, commandCompletion_of_decode_error (decode_of_reserved hw)]

end Sys2Proof.Machine
end

section
/-! PROOFS. The text of a command (30_encoding.md R73, R74). -/

namespace Sys2Proof

/-- What an assembler writes for a command: PACK and UNPACK with ORD = 0. -/
def canonicalForm : Instr → Instr
  | .pack _ => .pack .le
  | .unpack _ => .unpack .le
  | i => i

theorem canonical_canonicalForm (i : Instr) : (canonicalForm i).canonical = true := by
  cases i <;> rfl

theorem commandText_canonicalForm (i : Instr) : commandText (canonicalForm i) = commandText i := by
  cases i <;> rfl

theorem canonicalForm_of_canonical {i : Instr} (h : i.canonical = true) : canonicalForm i = i := by
  cases i with
  | pack ord => rw [canonicalForm, eq_of_beq h]
  | unpack ord => rw [canonicalForm, eq_of_beq h]
  | _ => rfl

/-- The listing of R73 has the text of every command, at the word of its canonical form. -/
theorem assemble_commandText (i : Instr) :
    assemble (commandText i) = some (encode (canonicalForm i)) := by
  rcases i with ord | ord | ord | ord | ord | ord | ord | ord <;> cases ord <;> decide

/-- The text printed for an instruction's own word. -/
theorem disassemble_encode (i : Instr) : disassemble (encode i) = some (commandText i) := by
  rw [disassemble, decode_encode]

/-- Settles O4: the instruction that is assembled is the canonical form. -/
theorem commandTextIsOneWord : Obligations.CommandTextIsOneWord := fun i =>
  ⟨canonicalForm i, assemble_commandText i, canonical_canonicalForm i,
    commandText_canonicalForm i, canonicalForm_of_canonical, disassemble_encode i⟩

end Sys2Proof
end

section
/-! PROOFS. PACK and UNPACK (40_pixel_codec.md R80 to R87): PACK keeps the upper bits of each channel
as a field of the word, and UNPACK puts zeros below each field. -/

namespace Sys2Proof.Machine

open Sys2Proof.Safety

/-- PACK hands over the packed word, in both orders. -/
theorem exec_pack (ord : Ord) {s : State} {o : Operands} (h : s.operands = some o) :
    exec (.pack ord) s = .next (handed s (.ok (.word (pack o.rgb)))) :=
  exec_eq_handed _ h

/-- UNPACK hands over the unpacked pixel, in both orders. -/
theorem exec_unpack (ord : Ord) {s : State} {o : Operands} (h : s.operands = some o) :
    exec (.unpack ord) s = .next (handed s (.ok (.rgb (unpack o.word)))) :=
  exec_eq_handed _ h

/-- Settles O8: the formula of R80 is the definition of PACK. -/
theorem packAssemblesTheWord : Obligations.PackAssemblesTheWord :=
  ⟨fun ord _ _ ho => exec_pack ord ho, decode_encode (.pack .le), decode_encode (.pack .be),
    fun _ => rfl⟩

theorem pack_red (c : RGB888) : (pack c).extractLsb' 11 5 = c.r.extractLsb' 3 5 := by
  rw [pack_eq_fields]
  exact (BitVec.extractLsb'_append_eq_of_le (by decide)).trans BitVec.extractLsb'_append_eq_left

theorem pack_green (c : RGB888) : (pack c).extractLsb' 5 6 = c.g.extractLsb' 2 6 := by
  rw [pack_eq_fields]
  exact (BitVec.extractLsb'_append_eq_of_le (by decide)).trans BitVec.extractLsb'_append_eq_right

theorem pack_blue (c : RGB888) : (pack c).extractLsb' 0 5 = c.b.extractLsb' 3 5 := by
  rw [pack_eq_fields]
  exact BitVec.extractLsb'_append_eq_right

theorem unpack_red (p : Word16) : (unpack p).r = p.extractLsb' 11 5 ++ 0#3 := by
  rw [unpack_eq_fill]

theorem unpack_green (p : Word16) : (unpack p).g = p.extractLsb' 5 6 ++ 0#2 := by
  rw [unpack_eq_fill]

theorem unpack_blue (p : Word16) : (unpack p).b = p.extractLsb' 0 5 ++ 0#3 := by
  rw [unpack_eq_fill]

/-- The upper bits of a channel, as a number: the channel shifted right, which is its quotient. -/
theorem toNat_upper_bits (n m : Nat) (x : BitVec (n + m)) :
    (x.extractLsb' m n).toNat = x.toNat / 2 ^ m := by
  have hlt : x.toNat / 2 ^ m < 2 ^ n :=
    Nat.div_lt_of_lt_mul (Nat.pow_add' 2 n m ▸ x.isLt)
  rw [BitVec.extractLsb'_toNat, Nat.shiftRight_eq_div_pow, Nat.mod_eq_of_lt hlt]

/-- The upper bits of a channel, widened again: the channel shifted right. -/
theorem setWidth_upper_bits (n m : Nat) (x : BitVec (n + m)) :
    (x.extractLsb' m n).setWidth (n + m) = x >>> m := by
  refine BitVec.eq_of_toNat_eq ?_
  rw [BitVec.toNat_setWidth_of_le (Nat.le_add_right n m), toNat_upper_bits n m,
    BitVec.toNat_ushiftRight, Nat.shiftRight_eq_div_pow]

/-- Settles O9: each field is the upper bits of its channel, which are its quotient. -/
theorem packFieldsAreTruncatedChannels : Obligations.PackFieldsAreTruncatedChannels := by
  intro ord s o ho
  refine ⟨_, exec_pack ord ho, ?_⟩
  rw [pack_red, pack_green, pack_blue]
  exact ⟨setWidth_upper_bits 5 3 o.rgb.r, setWidth_upper_bits 6 2 o.rgb.g,
    setWidth_upper_bits 5 3 o.rgb.b, toNat_upper_bits 5 3 o.rgb.r, toNat_upper_bits 6 2 o.rgb.g,
    toNat_upper_bits 5 3 o.rgb.b⟩

/-- Settles O10: both words are made of the kept bits of the channels, and both pixels of the fields. -/
theorem pixelLanesAreIndependent : Obligations.PixelLanesAreIndependent := by
  constructor
  · intro o1 o2 s t a b hs ht
    refine ⟨_, _, exec_pack o1 hs, exec_pack o2 ht, ?_, ?_, ?_, ?_⟩
    · intro hr
      rw [pack_red, pack_red, hr]
    · intro hg
      rw [pack_green, pack_green, hg]
    · intro hb
      rw [pack_blue, pack_blue, hb]
    · intro hr hg hb
      rw [pack_eq_fields, pack_eq_fields, hr, hg, hb]
  · intro o1 o2 s t a b hs ht
    refine ⟨_, _, exec_unpack o1 hs, exec_unpack o2 ht, ?_, ?_, ?_⟩
    · intro hr
      rw [unpack_red, unpack_red, hr]
    · intro hg
      rw [unpack_green, unpack_green, hg]
    · intro hb
      rw [unpack_blue, unpack_blue, hb]

/-- A field of `n` bits with `m` zeros below it is at most the field of all ones with zeros below. -/
theorem toNat_fill_le {n m : Nat} (f : BitVec n) : (f ++ 0#m).toNat ≤ (2 ^ n - 1) * 2 ^ m := by
  rw [BitVec.toNat_append, BitVec.toNat_ofNat, Nat.zero_mod, Nat.or_zero, Nat.shiftLeft_eq]
  exact Nat.mul_le_mul_right _ (Nat.le_pred_of_lt f.isLt)

/-- Settles O11: the bound of a channel is that of its field, and the zeros are the low bits. -/
theorem unpackFillsWithZeros : Obligations.UnpackFillsWithZeros := by
  refine ⟨fun ord s o ho => ?_, decode_encode (.unpack .le), decode_encode (.unpack .be),
    fun _ => rfl⟩
  refine ⟨_, exec_unpack ord ho, unpack_eq_fill o.word, ?_, ?_, ?_, unpack_quantised o.word⟩
  · rw [unpack_red]
    exact toNat_fill_le (o.word.extractLsb' 11 5)
  · rw [unpack_green]
    exact toNat_fill_le (o.word.extractLsb' 5 6)
  · rw [unpack_blue]
    exact toNat_fill_le (o.word.extractLsb' 0 5)

/-- A word is its three fields side by side (30_encoding.md R66). -/
theorem word16_fields (p : Word16) :
    p.extractLsb' 11 5 ++ p.extractLsb' 5 6 ++ p.extractLsb' 0 5 = p := by
  rw [BitVec.extractLsb'_append_extractLsb'_eq_extractLsb' (show 11 = 5 + 6 by decide)]
  exact BitVec.extractLsb'_append_extractLsb'

/-- PACK keeps the fields that UNPACK put above the zeros (40_pixel_codec.md R84). -/
theorem pack_unpack (p : Word16) : pack (unpack p) = p := by
  have hr : (unpack p).r.extractLsb' 3 5 = p.extractLsb' 11 5 := by
    rw [unpack_red]
    exact BitVec.extractLsb'_append_eq_left
  have hg : (unpack p).g.extractLsb' 2 6 = p.extractLsb' 5 6 := by
    rw [unpack_green]
    exact BitVec.extractLsb'_append_eq_left
  have hb : (unpack p).b.extractLsb' 3 5 = p.extractLsb' 0 5 := by
    rw [unpack_blue]
    exact BitVec.extractLsb'_append_eq_left
  rw [pack_eq_fields, hr, hg, hb, word16_fields]

/-- Settles O12: the second command packs the pixel that the first one unpacked. -/
theorem unpackThenPackIsTheIdentity : Obligations.UnpackThenPackIsTheIdentity := by
  intro o1 o2 s t a b hs ht
  refine ⟨_, exec_unpack o1 hs, fun hb => ?_⟩
  rw [exec_pack o2 ht, hb, pack_unpack]

/-- The upper bits with zeros below them are the bits that a mask of ones above zeros keeps. -/
theorem upper_bits_fill (n m : Nat) (x : BitVec (n + m)) :
    x.extractLsb' m n ++ 0#m = x &&& BitVec.allOnes (n + m) <<< m := by
  refine BitVec.eq_of_getLsbD_eq fun k hk => ?_
  rw [fill_getLsbD]
  by_cases h : k < m
  · simp [h]
  · simp [h, hk, show k - m < n by omega, show m + (k - m) = k by omega]

/-- Zero fill gives a value back exactly when the bits below the field are zero. -/
theorem upper_bits_fill_eq_self_iff (n m : Nat) (x : BitVec (n + m)) :
    x.extractLsb' m n ++ 0#m = x ↔ x.extractLsb' 0 m = 0#m := by
  constructor
  · intro h
    rw [← h]
    exact extractLsb'_fill _ m
  · intro h
    rw [← h]
    exact BitVec.extractLsb'_append_extractLsb'

/-- The mask keeps the bits that PACK keeps. -/
theorem maskPixel_eq_fill (c : RGB888) :
    maskPixel c = ⟨c.r.extractLsb' 3 5 ++ 0#3, c.g.extractLsb' 2 6 ++ 0#2,
      c.b.extractLsb' 3 5 ++ 0#3⟩ := by
  rw [maskPixel, RGB888.mk.injEq]
  exact ⟨(upper_bits_fill 5 3 c.r).symm, (upper_bits_fill 6 2 c.g).symm,
    (upper_bits_fill 5 3 c.b).symm⟩

/-- UNPACK puts zeros in place of the bits that PACK discards (40_pixel_codec.md R85). -/
theorem unpack_pack (c : RGB888) : unpack (pack c) = maskPixel c := by
  rw [unpack_eq_fill, pack_red, pack_green, pack_blue, maskPixel_eq_fill]

theorem maskPixel_eq_self_iff (c : RGB888) : maskPixel c = c ↔ Quantised c := by
  obtain ⟨r, g, b⟩ := c
  rw [maskPixel_eq_fill, RGB888.mk.injEq]
  exact and_congr (upper_bits_fill_eq_self_iff 5 3 r)
    (and_congr (upper_bits_fill_eq_self_iff 6 2 g) (upper_bits_fill_eq_self_iff 5 3 b))

/-- Settles O13: UNPACK after PACK is the mask, so its pixels are quantised, and the mask fixes those. -/
theorem packThenUnpackMasksTheChannels : Obligations.PackThenUnpackMasksTheChannels := by
  refine ⟨fun o1 o2 s t a b hs ht => ⟨_, exec_pack o1 hs, fun hb => ?_⟩, maskPixel_eq_self_iff,
    fun c => ?_⟩
  · rw [exec_unpack o2 ht, hb, unpack_pack]
  · rw [maskPixel_eq_self_iff, ← unpack_pack]
    exact unpack_quantised (pack c)

end Sys2Proof.Machine
end

section
/-! PROOFS. The header codec (41_header_codec.md R90 to R97): serializing and reading words in one
byte order, and the four operations that do it on headers and on single words. -/

namespace Sys2Proof.Machine

open Sys2Proof.Safety

/-- The word that is read has its two bytes side by side, in both orders (20_memory.md R43). -/
theorem des16_eq_wordOfBytes (b0 b1 : Byte) (ord : Ord) :
    des16 b0 b1 ord = wordOfBytes b0 b1 ord := by
  cases ord with
  | le => exact des16_le b0 b1
  | be => exact des16_be b0 b1

/-- Settles O18: reading in the other order puts the bytes side by side the other way round. -/
theorem byteOrderLaws : Obligations.ByteOrderLaws := by
  refine ⟨fun v ord => ?_, ser16_des16, fun v hsymm => ?_⟩
  · obtain ⟨hle, hbe⟩ := des16_bytes v
    cases ord with
    | le => exact ⟨_, _, rfl, hle, des16_be _ _⟩
    | be => exact ⟨_, _, rfl, hbe, des16_le _ _⟩
  · simp only [ser16, hsymm]

/-- HDR_ENC hands over the header's bytes. -/
theorem exec_hdrEnc (ord : Ord) {s : State} {o : Operands} (ho : s.operands = some o) :
    exec (.hdrEnc ord) s = .next (handed s (.ok (.headerBytes (headerBytes o.w o.h ord)))) :=
  exec_eq_handed _ ho

/-- HDR_DEC hands over the dimensions that the source declares. -/
theorem exec_hdrDec_ok {ord : Ord} {s : State} {o : Operands} {w h : Word16}
    (ho : s.operands = some o) (hd : decodeHeader o.src ord = .ok (w, h)) :
    exec (.hdrDec ord) s = .next (handed s (.ok (.dims w h))) := by
  rw [exec_eq_handed _ ho, computed, hd, completionOf_map_ok]

/-- WORD_SER hands over the bytes of the word. -/
theorem exec_wordSer (ord : Ord) {s : State} {o : Operands} (ho : s.operands = some o) :
    exec (.wordSer ord) s = .next (handed s (.ok (.wordBytes (ser16 o.word ord)))) :=
  exec_eq_handed _ ho

/-- Settles O14: the header's bytes are the two bytes of the width, then those of the height. -/
theorem hdrEncWritesWidthThenHeight : Obligations.HdrEncWritesWidthThenHeight :=
  ⟨fun _ _ ho => exec_hdrEnc .le ho, fun _ _ ho => exec_hdrEnc .be ho,
    decode_encode (.hdrEnc .le), decode_encode (.hdrEnc .be), fun _ => rfl⟩

/-- Settles O16: the bytes in each order are the two cases of `ser16`. -/
theorem wordSerWritesTheTwoBytes : Obligations.WordSerWritesTheTwoBytes :=
  ⟨fun _ _ ho => exec_wordSer .le ho, fun _ _ ho => exec_wordSer .be ho,
    decode_encode (.wordSer .le), decode_encode (.wordSer .be), fun _ => rfl⟩

/-- Settles O15: a source has its four header bytes or is too short. -/
theorem hdrDecReadsTheDimensions : Obligations.HdrDecReadsTheDimensions := by
  refine ⟨fun ord s o b0 b1 b2 b3 rest ho hsrc => ?_, fun ord s o ho hshort => ?_,
    decode_encode (.hdrDec .le), decode_encode (.hdrDec .be), rfl, fun _ => rfl⟩
  · rw [← des16_eq_wordOfBytes, ← des16_eq_wordOfBytes]
    exact exec_hdrDec_ok ho (by rw [hsrc, decodeHeader_cons])
  · rw [exec_eq_handed _ ho, computed, decodeHeader_short hshort, completionOf_map_error]

/-- Settles O17: a source has the two bytes of a word or is too short. -/
theorem wordDesReadsTheWord : Obligations.WordDesReadsTheWord := by
  refine ⟨fun ord s o b0 b1 rest ho hsrc => ?_, fun ord s o ho hshort => ?_,
    decode_encode (.wordDes .le), decode_encode (.wordDes .be), rfl, fun _ => rfl⟩
  · rw [exec_eq_handed _ ho, computed, hsrc, decodeWord_cons, completionOf_map_ok,
      des16_eq_wordOfBytes]
  · rw [exec_eq_handed _ ho, computed, decodeWord_short hshort, completionOf_map_error]

/-- The dimensions read from a source, written again in the same order, are its first four bytes. -/
theorem headerBytes_of_decodeHeader {src : List Byte} {ord : Ord} {w h : Word16}
    (hd : decodeHeader src ord = .ok (w, h)) : headerBytes w h ord = src.take 4 := by
  by_cases hshort : src.length < 4
  · simp [decodeHeader_short hshort] at hd
  · obtain ⟨b0, b1, b2, b3, rest, rfl⟩ := split_header hshort
    rw [decodeHeader_cons] at hd
    cases hd
    rw [headerBytes, ser16_des16, ser16_des16]
    rfl

/-- A source of at least four bytes declares dimensions (41_header_codec.md R94). -/
theorem exists_decodeHeader_ok {src : List Byte} (h4 : 4 ≤ src.length) (ord : Ord) :
    ∃ w h, decodeHeader src ord = .ok (w, h) :=
  ⟨_, _, dif_neg (Nat.not_lt.2 h4)⟩

/-- Settles O19: reading undoes writing, and writing undoes reading. -/
theorem headerRoundTrip : Obligations.HeaderRoundTrip := by
  constructor
  · intro ord s t a b hs ht
    refine ⟨_, exec_hdrEnc ord hs, fun hsrc => exec_hdrDec_ok ht ?_⟩
    rw [hsrc, ← List.append_nil (headerBytes _ _ _), decodeHeader_headerBytes]
  · intro ord s t a b hs ht h4
    obtain ⟨w, h, hd⟩ := exists_decodeHeader_ok h4 ord
    refine ⟨w, h, exec_hdrDec_ok hs hd, fun hw hh => ?_⟩
    rw [exec_hdrEnc ord ht, hw, hh, headerBytes_of_decodeHeader hd]

end Sys2Proof.Machine
end

section
/-! PROOFS. What FRAME_ENC and FRAME_DEC hand over: their errors, and the raster that FRAME_DEC
reads (42_frame_codec.md R111, R113, R115, R118). -/

namespace Sys2Proof.Machine

open Sys2Proof.Safety

/-- FRAME_ENC hands over the words of the blob of a raster in range that fits. -/
theorem exec_frameEnc_ok {s : State} {o : Operands} (ho : s.operands = some o)
    (hW : o.img.W ≤ 65535) (hH : o.img.H ≤ 65535)
    (hs : 4 + 2 * o.img.W * o.img.H ≤ 2 ^ s.sizeBits - 1) (ord : Ord) :
    exec (.frameEnc ord) s = .next (handed s (.ok (.blob (serWords (blobWords o.img) ord)))) := by
  rw [exec_eq_handed _ ho, computed, frameEncode_eq_serWords hW hH hs, completionOf_map_ok]

/-- FRAME_DEC hands over the raster it decodes. -/
theorem exec_frameDec_ok {ord : Ord} {s : State} {o : Operands} {img : Raster}
    (ho : s.operands = some o) (hd : frameDecode s.sizeBits o.src ord = .ok img) :
    exec (.frameDec ord) s = .next (handed s (.ok (.raster img))) := by
  rw [exec_eq_handed _ ho, computed, hd, completionOf_map_ok]

/-- FRAME_DEC hands over the error its checks end with. -/
theorem exec_frameDec_error {ord : Ord} {s : State} {o : Operands} {e : CodecError}
    (ho : s.operands = some o) (hd : frameDecode s.sizeBits o.src ord = .error e) :
    exec (.frameDec ord) s = .next (handed s (.error e)) := by
  rw [exec_eq_handed _ ho, computed, hd, completionOf_map_error]

/-- Settles O22: each of the three bounds fails one of FRAME_ENC's checks. -/
theorem frameEncRefusesWhatDoesNotFit : Obligations.FrameEncRefusesWhatDoesNotFit := by
  intro ord s o ho hbeyond
  rw [exec_eq_handed _ ho, computed, frameEncode_error hbeyond, completionOf_map_error]

/-- FRAME_DEC's first check is that of the header (42_frame_codec.md R118). -/
theorem frameDecode_short {n : Nat} {src : List Byte} (hshort : src.length < 4) (ord : Ord) :
    frameDecode n src ord = .error .truncatedInput := by
  rw [frameDecode, decodeHeader_short hshort]

/-- A pixel of the declared grid is the zero-filled word of the two bytes at its offset
(20_memory.md R50, 42_frame_codec.md R113). -/
theorem decodePixels_pixel {src : List Byte} {W H : Nat} (hl : blobSize W H ≤ src.length)
    (ord : Ord) {x y : Nat} (hx : x < W) (hy : y < H) : ∃ c0 c1 : Byte,
      src[4 + 2 * (y * W + x)]? = some c0 ∧ src[4 + 2 * (y * W + x) + 1]? = some c1 ∧
      (decodePixels src W H hl ord).px[y * W + x]? = some (zeroFilled (wordOfBytes c0 c1 ord)) := by
  have hoff : pixelOffset W x y + 2 ≤ src.length := (pixelOffset_le hx hy).trans hl
  refine ⟨_, _, List.getElem?_eq_getElem (Nat.lt_of_succ_lt hoff),
    List.getElem?_eq_getElem hoff, ?_⟩
  refine (decodePixels_getElem? src W H hl ord ⟨x, hx⟩ ⟨y, hy⟩).trans ?_
  rw [wordAt_eq, des16_eq_wordOfBytes, unpack_eq_fill]
  rfl

/-- Settles O25: the checks in the order of R118, then the pixels at their offsets. -/
theorem frameDecReadsTheBlob : Obligations.FrameDecReadsTheBlob := by
  refine ⟨fun ord s o ho hshort => exec_frameDec_error ho (frameDecode_short hshort ord),
    fun ord s o b0 b1 b2 b3 rest W H ho hsrc hW hH => ?_,
    decode_encode (.frameDec .le), decode_encode (.frameDec .be), rfl, rfl, fun _ => rfl⟩
  have hhead : decodeHeader o.src ord = .ok (wordOfBytes b0 b1 ord, wordOfBytes b2 b3 ord) := by
    rw [hsrc, decodeHeader_cons, des16_eq_wordOfBytes, des16_eq_wordOfBytes]
  subst hW hH
  obtain ⟨hshort, -⟩ | ⟨w, h, hd, hcases⟩ := frameDecode_cases s.sizeBits o.src ord
  · simp [decodeHeader_short hshort] at hhead
  · cases hhead.symm.trans hd
    obtain ⟨hbig, e⟩ | ⟨hs, hmissing, e⟩ | ⟨hs, hl, e⟩ := hcases
    · rw [if_pos hbig]
      exact exec_frameDec_error ho e
    · rw [if_neg (Nat.not_lt.2 hs), if_pos hmissing]
      exact exec_frameDec_error ho e
    · have hpresent : ¬ o.src.length < 4 + 2 * _ * _ := Nat.not_lt.2 hl
      rw [if_neg (Nat.not_lt.2 hs), if_neg hpresent]
      exact ⟨_, exec_frameDec_ok ho e, rfl, rfl, scan_length _ _ _,
        fun _ _ hx hy => decodePixels_pixel hl ord hx hy⟩

end Sys2Proof.Machine
end

section
/-! PROOFS. The frame codec's round trips (42_frame_codec.md R117, R119). FRAME_DEC unpacks the
words after the header of a blob, and a source that decodes is the words of a blob and whatever
follows them. -/

namespace Sys2Proof.Machine

open Sys2Proof.Safety

/-- The word that stands at byte offset `2 * k` is the word `k`. -/
theorem wordAt_serWords {v : Word16} (ord : Ord) :
    ∀ {ws : List Word16} {k : Nat} (hk : 2 * k + 2 ≤ (serWords ws ord).length),
      ws[k]? = some v → wordAt (serWords ws ord) (2 * k) hk ord = v
  | [], _, _, hv => by simp at hv
  | u :: ws, 0, _, hv => by
    obtain rfl : u = v := by simpa using hv
    obtain ⟨hle, hbe⟩ := des16_bytes u
    cases ord with
    | le => exact hle
    | be => exact hbe
  | u :: ws, k + 1, hk, hv => by
    have hk' : 2 * k + 2 ≤ (serWords ws ord).length := by
      rw [serWords_length] at hk ⊢
      rw [List.length_cons] at hk
      omega
    have hshift : wordAt (serWords (u :: ws) ord) (2 * (k + 1)) hk ord =
        wordAt (serWords ws ord) (2 * k) hk' ord := by cases ord <;> rfl
    rw [hshift, wordAt_serWords ord hk' (by simpa using hv)]

/-- The declared pixels of a blob's words are the unpacked words after the header. -/
theorem decodePixels_serWords {w h : Word16} {ws : List Word16}
    (hws : ws.length = w.toNat * h.toNat) {ord : Ord}
    (hl : blobSize w.toNat h.toNat ≤ (serWords (w :: h :: ws) ord).length) :
    (decodePixels (serWords (w :: h :: ws) ord) w.toNat h.toNat hl ord).px = ws.map unpack := by
  refine scan_eq_of_getElem _ (by rw [List.length_map, hws]) _ fun x y => ?_
  have hi : pixelIndex w.toNat x.val y.val < ws.length := hws ▸ pixelIndex_lt x.isLt y.isLt
  have hoff : pixelOffset w.toNat x.val y.val = 2 * (pixelIndex w.toNat x.val y.val + 2) := by
    rw [pixelOffset]
    ring
  have hword : (w :: h :: ws)[pixelIndex w.toNat x.val y.val + 2]? =
      some ws[pixelIndex w.toNat x.val y.val] := by simp [hi]
  simp [hoff, wordAt_serWords ord _ hword, hi]

/-- FRAME_DEC of a blob's words and whatever follows them. -/
theorem frameDecode_serWords {n : Nat} {w h : Word16} {ws : List Word16}
    (hws : ws.length = w.toNat * h.toNat) (hs : 4 + 2 * w.toNat * h.toNat ≤ 2 ^ n - 1) (ord : Ord)
    (more : List Byte) :
    frameDecode n (serWords (w :: h :: ws) ord ++ more) ord =
      .ok ⟨w.toNat, h.toNat, ws.map unpack, by rw [List.length_map, hws]⟩ := by
  have hhead : decodeHeader (serWords (w :: h :: ws) ord) ord = .ok (w, h) := by
    rw [serWords_cons, serWords_cons, ← List.append_assoc]
    exact decodeHeader_headerBytes w h ord _
  have hlen : blobSize w.toNat h.toNat ≤ (serWords (w :: h :: ws) ord).length := by
    rw [serWords_length, List.length_cons, List.length_cons, hws, blobSize, Nat.mul_assoc]
    omega
  refine frameDecode_append ?_ more
  rw [frameDecode_ok hhead hs hlen]
  exact congrArg _ (raster_ext rfl rfl (decodePixels_serWords hws hlen))

/-- FRAME_DEC of a raster's blob and whatever follows it: the raster with its pixels masked
(42_frame_codec.md R117). -/
theorem frameDecode_blobWords {n : Nat} {img : Raster} (hW : img.W ≤ 65535) (hH : img.H ≤ 65535)
    (hs : 4 + 2 * img.W * img.H ≤ 2 ^ n - 1) (ord : Ord) (more : List Byte) :
    frameDecode n (serWords (blobWords img) ord ++ more) ord =
      .ok ⟨img.W, img.H, img.px.map maskPixel, by rw [List.length_map, img.size]⟩ := by
  have hw : (BitVec.ofNat 16 img.W).toNat = img.W := Nat.mod_eq_of_lt (Nat.lt_succ_of_le hW)
  have hh : (BitVec.ofNat 16 img.H).toNat = img.H := Nat.mod_eq_of_lt (Nat.lt_succ_of_le hH)
  have hpx : (img.px.map pack).map unpack = img.px.map maskPixel := by
    rw [List.map_map]
    exact List.map_congr_left fun c _ => unpack_pack c
  rw [blobWords, frameDecode_serWords (by rw [List.length_map, img.size, hw, hh])
    (by rw [hw, hh]; exact hs)]
  exact congrArg _ (raster_ext hw hh hpx)

/-- A blob that FRAME_ENC completes with is that of a raster in range that fits. -/
theorem fits_of_frameEnc_blob {ord : Ord} {s : State} {o : Operands} {out : List Byte}
    (ho : s.operands = some o)
    (h : exec (.frameEnc ord) s = .next (handed s (.ok (.blob out)))) :
    o.img.W ≤ 65535 ∧ o.img.H ≤ 65535 ∧ 4 + 2 * o.img.W * o.img.H ≤ 2 ^ s.sizeBits - 1 := by
  rw [exec_eq_handed_iff _ ho, computed] at h
  obtain ⟨-, e⟩ | ⟨hW, hH, hs, -⟩ := frameEncode_cases s.sizeBits o.img ord
  · simp [e] at h
  · exact ⟨hW, hH, hs⟩

/-- Settles O27: the blob is the words of the raster, and unpacking a packed pixel masks it. -/
theorem decodeAfterEncodeQuantises : Obligations.DecodeAfterEncodeQuantises := by
  intro ord s t a b out hs ht hn henc hsrc
  obtain ⟨hW, hH, hfits⟩ := fits_of_frameEnc_blob hs henc
  obtain rfl := blob_eq_serWords hs henc
  have hdec := frameDecode_blobWords hW hH hfits ord []
  rw [List.append_nil, ← hsrc, ← hn] at hdec
  exact ⟨_, exec_frameDec_ok ht hdec, rfl, rfl, rfl⟩

/-- A raster of no area has a blob of 4 bytes, a size that 3 bits hold (42_frame_codec.md R112). -/
theorem blobSize_of_zero_area_fits {n W H : Nat} (hn : 3 ≤ n) (harea : W * H = 0) :
    4 + 2 * W * H ≤ 2 ^ n - 1 := by
  have hpow : 2 ^ 3 ≤ 2 ^ n := Nat.pow_le_pow_right (by decide) hn
  rw [Nat.mul_assoc, harea]
  omega

/-- Settles O38: the size is 4 whatever the other dimension is, and there is no pixel to mask. -/
theorem zeroAreaKeepsItsDimensions : Obligations.ZeroAreaKeepsItsDimensions := by
  intro ord s t a b more hs ht hzero hW hH h3s h3t
  have harea : a.img.W * a.img.H = 0 := Nat.mul_eq_zero.2 hzero
  have hpx : a.img.px = [] := List.eq_nil_of_length_eq_zero (a.img.size.trans harea)
  refine ⟨_, exec_frameEnc_ok hs hW hH (blobSize_of_zero_area_fits h3s harea) ord, ?_,
    fun hsrc => exec_frameDec_ok ht ?_⟩
  · rw [serWords_length, blobWords_length, harea]
  · rw [hsrc, frameDecode_blobWords hW hH (blobSize_of_zero_area_fits h3t harea)]
    exact congrArg _ (raster_ext rfl rfl (by simp [hpx]))

/-- Any `2 * m` bytes are the bytes of `m` words. -/
theorem exists_serWords_eq (ord : Ord) : ∀ {m : Nat} {l : List Byte}, l.length = 2 * m →
    ∃ ws, ws.length = m ∧ serWords ws ord = l
  | 0, _, hl => ⟨[], rfl, (List.eq_nil_of_length_eq_zero hl).symm⟩
  | m + 1, b0 :: b1 :: l, hl => by
    obtain ⟨ws, hws, rfl⟩ := exists_serWords_eq ord (m := m) (l := l)
      (by simpa [Nat.mul_succ] using hl)
    exact ⟨des16 b0 b1 ord :: ws, by simp [hws], by rw [serWords_cons, ser16_des16]; rfl⟩
  | m + 1, [], hl => by simp at hl
  | m + 1, [_], hl => by simp [Nat.mul_succ] at hl

/-- A source that has the bytes it declares is its header, one word for each pixel, and the rest. -/
theorem exists_eq_serWords_append {src : List Byte} {ord : Ord} {w h : Word16}
    (hd : decodeHeader src ord = .ok (w, h)) (hl : blobSize w.toNat h.toNat ≤ src.length) :
    ∃ ws more, ws.length = w.toNat * h.toNat ∧ src = serWords (w :: h :: ws) ord ++ more := by
  have hlen : ((src.drop 4).take (2 * (w.toNat * h.toNat))).length = 2 * (w.toNat * h.toNat) := by
    rw [blobSize, Nat.mul_assoc] at hl
    rw [List.length_take, List.length_drop]
    omega
  obtain ⟨ws, hws, hbytes⟩ := exists_serWords_eq ord hlen
  refine ⟨ws, (src.drop 4).drop (2 * (w.toNat * h.toNat)), hws, ?_⟩
  rw [serWords_cons, serWords_cons, hbytes, ← List.append_assoc, ← headerBytes,
    headerBytes_of_decodeHeader hd, List.append_assoc, List.take_append_drop, List.take_append_drop]

/-- A source that decodes begins with the blob of its raster (42_frame_codec.md R119). -/
theorem eq_blob_append_of_frameDecode {n : Nat} {src : List Byte} {ord : Ord} {img : Raster}
    (hok : frameDecode n src ord = .ok img) :
    img.W ≤ 65535 ∧ img.H ≤ 65535 ∧ 4 + 2 * img.W * img.H ≤ 2 ^ n - 1 ∧
      ∃ more, src = serWords (blobWords img) ord ++ more := by
  obtain ⟨-, e⟩ | ⟨w, h, hd, ⟨-, e⟩ | ⟨-, -, e⟩ | ⟨hs, hl, -⟩⟩ := frameDecode_cases n src ord
  · simp [e] at hok
  · simp [e] at hok
  · simp [e] at hok
  · obtain ⟨ws, more, hws, rfl⟩ := exists_eq_serWords_append hd hl
    rw [frameDecode_serWords hws hs] at hok
    cases hok
    refine ⟨Nat.le_of_lt_succ w.isLt, Nat.le_of_lt_succ h.isLt, hs, more, ?_⟩
    have hpx : (ws.map unpack).map pack = ws := by
      rw [List.map_map]
      exact List.map_id'' pack_unpack ws
    rw [blobWords, hpx, BitVec.ofNat_toNat, BitVec.ofNat_toNat, BitVec.setWidth_eq,
      BitVec.setWidth_eq]

/-- Settles O28: the source begins with the blob of its raster, which is what FRAME_ENC computes. -/
theorem encodeAfterDecodeReproducesTheBlob : Obligations.EncodeAfterDecodeReproducesTheBlob := by
  intro ord s t a b img hs ht hn hdec himg
  rw [exec_eq_handed_iff _ hs] at hdec
  obtain ⟨hW, hH, hfits, more, hsrc⟩ :=
    eq_blob_append_of_frameDecode (completionOf_map_raster_eq_ok hdec)
  subst himg
  have hlen : (serWords (blobWords b.img) ord).length = 4 + 2 * b.img.W * b.img.H := by
    rw [serWords_length, blobWords_length]
    ring
  have htake : a.src.take (4 + 2 * b.img.W * b.img.H) = serWords (blobWords b.img) ord := by
    rw [hsrc, List.take_left' hlen]
  have henc := exec_frameEnc_ok ht hW hH (hn ▸ hfits) ord
  rw [← htake] at henc
  refine ⟨henc, fun hall => ?_⟩
  rwa [← hall, List.take_length] at henc

end Sys2Proof.Machine
end

section
/-! PROOFS. Reset, and steps with nothing presented (70_reset_and_hazards.md R150, R151). -/

namespace Sys2Proof.Machine

open Sys2Proof.Safety

/-- Settles O6: a reset is a move with its own completions, and without a move or operands nothing
runs. -/
theorem idleAndResetSteps : Obligations.IdleAndResetSteps := by
  intro s i c rest
  refine ⟨step_of_no_move, exec_idle i, fun hreset => ?_, step_of_move, rfl⟩
  simpa [moveCompletions] using step_of_move hreset

/-- Settles O7: the reset state has delivered nothing, so there is no completion to check. -/
theorem resetIsIdleAndKeepsTheInvariant : Obligations.ResetIsIdleAndKeepsTheInvariant :=
  ⟨rfl, rfl, List.forall_mem_nil _⟩

end Sys2Proof.Machine
end

section
/-! PROOFS. Bytes read in the other order (70_reset_and_hazards.md R154): a header is swapped and
not detected, and the swapped dimensions can declare more bytes than the source has. -/

namespace Sys2Proof.Machine

open Sys2Proof.Safety

/-- The header's bytes, read in the other order, are the dimensions with their bytes exchanged. -/
theorem decodeHeader_otherOrd (w h : Word16) (ord : Ord) (rest : List Byte) :
    decodeHeader (headerBytes w h ord ++ rest) (otherOrd ord) =
      .ok (swapBytes w, swapBytes h) := by
  obtain ⟨hlaw, -, -⟩ := byteOrderLaws
  obtain ⟨w0, w1, hwser, -, hwswap⟩ := hlaw w ord
  obtain ⟨h0, h1, hhser, -, hhswap⟩ := hlaw h ord
  rw [headerBytes, hwser, hhser, ← hwswap, ← hhswap]
  exact decodeHeader_cons w0 w1 h0 h1 rest (otherOrd ord)

/-- Settles O20: HDR_DEC checks the number of bytes only, so the swapped dimensions are a result. -/
theorem headerInTheOtherOrderIsSwapped : Obligations.HeaderInTheOtherOrderIsSwapped := by
  intro ord s t a b hs ht
  refine ⟨_, exec_hdrEnc ord hs, fun hsrc => exec_hdrDec_ok ht ?_⟩
  rw [hsrc, ← List.append_nil (headerBytes _ _ _), decodeHeader_otherOrd]

/-- FRAME_DEC of a source that declares a size that fits, but lacks some of its bytes
(42_frame_codec.md R113). -/
theorem frameDecode_truncated {n : Nat} {src : List Byte} {ord : Ord} {w h : Word16}
    (hd : decodeHeader src ord = .ok (w, h)) (hs : 4 + 2 * w.toNat * h.toNat ≤ 2 ^ n - 1)
    (hl : src.length < blobSize w.toNat h.toNat) :
    frameDecode n src ord = .error .truncatedInput := by
  simp only [frameDecode, hd]
  rw [if_neg (by simp [(sizeOK_iff n _ _).2 hs]), dif_pos hl]

/-- The raster of R154's example: one red and one blue pixel. -/
def redBlue : Raster :=
  ⟨2, 1, [⟨255#8, 0#8, 0#8⟩, ⟨0#8, 0#8, 255#8⟩], rfl⟩

/-- The source of R154's example is the LE blob of the raster. -/
theorem serWords_redBlue : serWords (blobWords redBlue) .le =
    [0x02#8, 0x00#8, 0x01#8, 0x00#8, 0x00#8, 0xF8#8, 0x1F#8, 0x00#8] := by
  decide

/-- Settles O37: in the order BE the header declares 512 by 256, whose 262148 bytes fit 19 bits and
are not there; in the order LE the source is the blob of the raster. -/
theorem littleBlobReadBigIsTruncated : Obligations.LittleBlobReadBigIsTruncated := by
  intro s o ho hsrc hn
  have hfits {k : Nat} (hk : k < 2 ^ 19) : k ≤ 2 ^ s.sizeBits - 1 :=
    Nat.le_sub_one_of_lt (hk.trans_le (Nat.pow_le_pow_right (by decide) hn))
  constructor
  · have hhead : decodeHeader o.src .be = .ok (512#16, 256#16) := by
      rw [hsrc]
      exact decodeHeader_otherOrd 2#16 1#16 .le _
    have hmissing : o.src.length < blobSize (512#16).toNat (256#16).toNat := by
      rw [hsrc]
      decide
    exact exec_frameDec_error ho (frameDecode_truncated hhead (hfits (by decide)) hmissing)
  · have hdec := frameDecode_blobWords (img := redBlue) (by decide) (by decide)
      (hfits (by decide)) .le []
    rw [List.append_nil, serWords_redBlue, ← hsrc] at hdec
    exact exec_frameDec_ok ho hdec

end Sys2Proof.Machine
end
